-- ==== Sys2Proof/Word.lean ====
section
/-! DEFINITION. The word types of CHIP8-CORE: bytes of memory and registers, 16-bit words, register names. -/

namespace Sys2Proof

/-- A byte: a general register, a timer or a memory cell (00_scope.md R6 `REG_W`, `TIMER_W`). -/
abbrev Byte := BitVec 8

/-- A 16-bit word: an instruction, `PC`, `I`, a call-stack entry (00_scope.md R6). -/
abbrev Word := BitVec 16

/-- A general register's index, `V0` to `VF` (10_state.md R10): no index is out of range. -/
abbrev RegName := Fin 16

/-- `VF`, the register DRAW uses as its collision flag (10_state.md R12). -/
abbrev vf : RegName := 15

/-- A framebuffer column, 0 at the left (10_state.md R21). -/
abbrev Column := Fin 64

/-- A framebuffer row, 0 at the top (10_state.md R21). -/
abbrev Row := Fin 32

/-- `GLYPH_TABLE`, the 80-byte launch parameter (00_scope.md R7). -/
abbrev GlyphTable := Vector Byte 80

end Sys2Proof
end

