-- ==== Sys2Proof/Syntax.lean ====
section
/-! DEFINITION. The instructions of CHIP8-CORE: one constructor per row of spec/opcode_table.json
(30_encoding.md R64), with the operands of the row's format (R61 to R63). -/

namespace Sys2Proof

/-- The closed enumeration of decoded instruction shapes (40_fetch_dispatch.md R85). -/
inductive Instr where
  /-- `0000`, END (40_fetch_dispatch.md R84). -/
  | endOfProgram
  /-- `00E0`, CLS (42_display.md R101). -/
  | cls
  /-- `1NNN`, JUMP (41_flow_and_registers.md R91). -/
  | jump (nnn : BitVec 12)
  /-- `6XNN`, SETR (41_flow_and_registers.md R92). -/
  | setr (x : RegName) (nn : Byte)
  /-- `7XNN`, ADDI (41_flow_and_registers.md R93). -/
  | addi (x : RegName) (nn : Byte)
  /-- `ANNN`, SETI (41_flow_and_registers.md R94). -/
  | seti (nnn : BitVec 12)
  /-- `DXYN`, DRAW (42_display.md R102, R103); `n` is the number of sprite rows. -/
  | draw (x : RegName) (y : RegName) (n : BitVec 4)
  /-- Any other word, UNKNOWN, which carries the whole word (40_fetch_dispatch.md R86). -/
  | unknown (w : Word)
  deriving DecidableEq, Repr

/-- The row's mnemonic in spec/opcode_table.json (30_encoding.md R64, R69). -/
def Instr.mnemonic : Instr → String
  | .endOfProgram => "END"
  | .cls => "CLS"
  | .jump _ => "JUMP"
  | .setr _ _ => "SETR"
  | .addi _ _ => "ADDI"
  | .seti _ => "SETI"
  | .draw _ _ _ => "DRAW"
  | .unknown _ => "UNKNOWN"

end Sys2Proof
end

