-- ==== Sys2Proof/WellFormed.lean ====
section
/-! DEFINITION. Which instruction terms stand for a word of the hardware. Register indices and immediates are
bounded by their types (30_encoding.md R63: every field value is legal), so the one check is that the word an
UNKNOWN carries belongs to no other row (40_fetch_dispatch.md R86). -/

namespace Sys2Proof

/-- "every word that is not `0x0000`, not `0x00E0`, and whose top nibble is not 1, 6, 7, A or D" (R86). -/
def Word.isUnknown (w : Word) : Bool :=
  let top := w.toNat / 0x1000
  w != 0x0000#16 && w != 0x00E0#16 && top != 0x1 && top != 0x6 && top != 0x7 && top != 0xA && top != 0xD

/-- The term is the decoding of some word. -/
def Instr.wellFormed : Instr → Bool
  | .endOfProgram => true
  | .cls => true
  | .jump _ => true
  | .setr _ _ => true
  | .addi _ _ => true
  | .seti _ => true
  | .draw _ _ _ => true
  | .unknown w => Word.isUnknown w

end Sys2Proof
end

