-- ==== Sys2Proof/Decode.lean ====
section
/-! DEFINITION. From words to instructions and back: the bit fields (30_encoding.md R61), the decoder (R64 to R66,
40_fetch_dispatch.md R85), the encoder (R69), the opcode table itself, and the host's `decodeTableWord`. -/

namespace Sys2Proof

/-! ## Bit fields of a word (30_encoding.md R61) -/

/-- Bits 15 to 12, the opcode family. -/
def Word.family (w : Word) : BitVec 4 := w.extractLsb' 12 4

/-- Bits 11 to 8, the first register index. -/
def Word.fieldX (w : Word) : RegName := (w.extractLsb' 8 4).toFin

/-- Bits 7 to 4, the second register index. -/
def Word.fieldY (w : Word) : RegName := (w.extractLsb' 4 4).toFin

/-- Bits 3 to 0, a 4-bit immediate. -/
def Word.fieldN (w : Word) : BitVec 4 := w.extractLsb' 0 4

/-- Bits 7 to 0, an 8-bit immediate. -/
def Word.fieldNN (w : Word) : Byte := w.extractLsb' 0 8

/-- Bits 11 to 0, a 12-bit address or immediate. -/
def Word.fieldNNN (w : Word) : BitVec 12 := w.extractLsb' 0 12

/-! ## Byte order of a word (20_memory.md R42, 30_encoding.md R60) -/

/-- The word of two consecutive bytes: the byte at the lower address is bits 15 to 8. -/
def wordOfBytes (hi lo : Byte) : Word := hi ++ lo

/-- The byte of a word that lies at the lower address. -/
def Word.highByte (w : Word) : Byte := w.extractLsb' 8 8

/-- The byte of a word that lies at the higher address. -/
def Word.lowByte (w : Word) : Byte := w.extractLsb' 0 8

/-! ## The decoder -/

/-- The family dispatch of a word that is not `0x0000` (40_fetch_dispatch.md R85). Family 0 compares all 16 bits
(30_encoding.md R66, decision D6); the last arm is the one explicit catch-all. -/
def dispatchWord (w : Word) : Instr :=
  if w.family = 0x0#4 then (if w = 0x00E0#16 then .cls else .unknown w)
  else if w.family = 0x1#4 then .jump w.fieldNNN
  else if w.family = 0x6#4 then .setr w.fieldX w.fieldNN
  else if w.family = 0x7#4 then .addi w.fieldX w.fieldNN
  else if w.family = 0xA#4 then .seti w.fieldNNN
  else if w.family = 0xD#4 then .draw w.fieldX w.fieldY w.fieldN
  else .unknown w

/-- Decoding is total on words (30_encoding.md R67); END is tested before the families (R64 row 1). -/
def decodeWord (w : Word) : Instr :=
  if w = 0x0000#16 then .endOfProgram else dispatchWord w

/-- Why a list of bytes holds no instruction. -/
inductive DecodeError where
  /-- Fewer than the two bytes of an instruction word (30_encoding.md R60). -/
  | truncated
  deriving DecidableEq, Repr

/-- Decode the instruction at the head of a list of bytes, lowest address first, and return the rest. -/
def decode : List Byte → Except DecodeError (Instr × List Byte)
  | hi :: lo :: rest => .ok (decodeWord (wordOfBytes hi lo), rest)
  | _ => .error .truncated

/-! ## The encoder (30_encoding.md R62, R69) -/

/-- The word of an instruction. -/
def encodeWord : Instr → Word
  | .endOfProgram => 0x0000#16
  | .cls => 0x00E0#16
  | .jump nnn => 0x1#4 ++ nnn
  | .setr x nn => 0x6#4 ++ BitVec.ofNat 4 x.val ++ nn
  | .addi x nn => 0x7#4 ++ BitVec.ofNat 4 x.val ++ nn
  | .seti nnn => 0xA#4 ++ nnn
  | .draw x y n => 0xD#4 ++ BitVec.ofNat 4 x.val ++ BitVec.ofNat 4 y.val ++ n
  | .unknown w => w

/-- The bytes of an instruction, lowest address first: high byte first (R60). -/
def encode (i : Instr) : List Byte := [(encodeWord i).highByte, (encodeWord i).lowByte]

/-! ## The opcode map as data (30_encoding.md R64) -/

/-- One row of the map: a word `w` selects it when `w &&& mask = match`. -/
structure OpcodeRow where
  mnemonic : String
  mask : Word
  pattern : Word
  deriving DecidableEq, Repr

/-- Whether a word selects a row. -/
def OpcodeRow.selects (r : OpcodeRow) (w : Word) : Bool := (w &&& r.mask) == r.pattern

/-- The complete map, rows in the order in which they are tried. -/
def opcodeMap : List OpcodeRow :=
  [ ⟨"END", 0xFFFF#16, 0x0000#16⟩,
    ⟨"CLS", 0xFFFF#16, 0x00E0#16⟩,
    ⟨"JUMP", 0xF000#16, 0x1000#16⟩,
    ⟨"SETR", 0xF000#16, 0x6000#16⟩,
    ⟨"ADDI", 0xF000#16, 0x7000#16⟩,
    ⟨"SETI", 0xF000#16, 0xA000#16⟩,
    ⟨"DRAW", 0xF000#16, 0xD000#16⟩,
    ⟨"UNKNOWN", 0x0000#16, 0x0000#16⟩ ]

/-- The first row of a list that a word selects: "the first that matches wins" (R64). -/
def firstRow : List OpcodeRow → Word → Option OpcodeRow
  | [], _ => none
  | r :: rows, w => if r.selects w then some r else firstRow rows w

/-! ## The host's view of the decoder -/

/-- The instruction the decoder reads from an opcode-table word of `nbits` bits: the word is laid out as two bytes,
high byte first, and given to `decode`. -/
def decodeTableWord (nbits w : Nat) : Option Instr :=
  let word : Word := BitVec.ofNat 16 (w % 2 ^ nbits)
  match decode [word.highByte, word.lowByte] with
  | .ok (i, _) => some i
  | .error _ => none

end Sys2Proof
end

