-- ==== Sys2Proof/Config.lean ====
section
/-! DEFINITION. The named numeric parameters of the spec (00_scope.md R6, decision D25). The widths among them are carried
by the types of Word.lean and Machine/State.lean. The two open launch parameters (R7) are no constants: `GLYPH_TABLE` is a
field of State and `ROM` an argument of `launch` (log 3, log 10). -/

namespace Sys2Proof.Config

/-- `MEM_SIZE`: bytes of memory, addresses 0 to 4095. -/
@[simp] abbrev memSize : Nat := 4096

/-- `PROG_BASE`: address of the first ROM byte and reset value of `PC`. -/
@[simp] abbrev progBase : Nat := 0x200

/-- `ROM_MAX`: largest ROM length in bytes. -/
@[simp] abbrev romMax : Nat := memSize - progBase

/-- `GLYPH_BASE`: address of the first glyph byte. -/
@[simp] abbrev glyphBase : Nat := 0x050

/-- `GLYPH_BYTES`: `GLYPH_COUNT` = 16 glyphs of `GLYPH_ROWS` = 5 bytes. -/
@[simp] abbrev glyphBytes : Nat := 16 * 5

/-- `STACK_CAP`: call-stack entries. -/
@[simp] abbrev stackCap : Nat := 64

/-- `INSTR_BYTES`: bytes of an instruction, the increment of `PC`. -/
@[simp] abbrev instrBytes : Nat := 2

end Sys2Proof.Config
end

