-- ==== Sys2Proof/Machine/Memory.lean ====
section
/-! DEFINITION. The memory array `MEM` as a list of (address, byte) pairs in one canonical form: what an unlisted
address reads as, looking a cell up, writing a cell (10_state.md R22, 20_memory.md R40, R41). -/

namespace Sys2Proof.Machine

/-- The memory array: the cells whose byte differs from what an unlisted address reads as, addresses rising. -/
abbrev Memory := List Host.Cell

/-- What an unlisted address reads as: the launch contents with no ROM, `GLYPH_TABLE` at 0x050 to 0x09F and 0
elsewhere (20_memory.md R41, 10_state.md R29). -/
def Memory.unlisted (g : GlyphTable) (a : Nat) : Byte :=
  if h : Config.glyphBase ≤ a ∧ a < Config.glyphBase + Config.glyphBytes then
    g[a - Config.glyphBase]'(by simp at h ⊢; omega)
  else 0

/-- The byte a list of cells gives an address, if it lists it. -/
def Memory.lookup : Memory → Nat → Option Byte
  | [], _ => none
  | (k, b) :: m, a => if k = a then some b else Memory.lookup m a

/-- The byte at an address. -/
def Memory.read (g : GlyphTable) (m : Memory) (a : Nat) : Byte :=
  (Memory.lookup m a).getD (Memory.unlisted g a)

/-- List a byte at its place in the rising order, replacing the byte the address had. -/
def Memory.put : Memory → Nat → Byte → Memory
  | [], a, b => [(a, b)]
  | (k, c) :: m, a, b =>
    if a < k then (a, b) :: (k, c) :: m
    else if a = k then (a, b) :: m
    else (k, c) :: Memory.put m a b

/-- Take an address off the list. -/
def Memory.erase : Memory → Nat → Memory
  | [], _ => []
  | (k, c) :: m, a => if k = a then Memory.erase m a else (k, c) :: Memory.erase m a

/-- Write a byte; writing what an unlisted address reads as takes the address off the list. -/
def Memory.write (g : GlyphTable) (m : Memory) (a : Nat) (b : Byte) : Memory :=
  if b = Memory.unlisted g a then Memory.erase m a else Memory.put m a b

/-- The canonical form: addresses strictly rising and inside the array, no cell equal to what an unlisted address
reads as. -/
abbrev Memory.wf (g : GlyphTable) (m : Memory) : Prop :=
  m.Pairwise (fun c d => c.1 < d.1) ∧ ∀ c ∈ m, c.1 < Config.memSize ∧ c.2 ≠ Memory.unlisted g c.1

end Sys2Proof.Machine
end

