-- ==== Sys2Proof/Machine/Glyphs.lean ====
section
/-! DEFINITION. The conventional glyph table that 70_reset_and_hazards.md R143 gives as the default value of the open
parameter `GLYPH_TABLE`. No rule of the instruction set depends on these bytes. -/

namespace Sys2Proof.Machine

/-- The conventional hexadecimal font, glyph `g` at bytes `5 * g` to `5 * g + 4`, top scanline first.
PRESUMED (general knowledge, 93_implementation_defined.md G1; log 3): unsafe, a claim that rests on these bytes is
a claim about this table. -/
def defaultGlyphTable : GlyphTable :=
  #v[0xF0, 0x90, 0x90, 0x90, 0xF0,  0x20, 0x60, 0x20, 0x20, 0x70,
     0xF0, 0x10, 0xF0, 0x80, 0xF0,  0xF0, 0x10, 0xF0, 0x10, 0xF0,
     0x90, 0x90, 0xF0, 0x10, 0x10,  0xF0, 0x80, 0xF0, 0x10, 0xF0,
     0xF0, 0x80, 0xF0, 0x90, 0xF0,  0xF0, 0x10, 0x20, 0x40, 0x40,
     0xF0, 0x90, 0xF0, 0x90, 0xF0,  0xF0, 0x90, 0xF0, 0x10, 0xF0,
     0xF0, 0x90, 0xF0, 0x90, 0x90,  0xE0, 0x90, 0xE0, 0x90, 0xE0,
     0xF0, 0x80, 0x80, 0x80, 0xF0,  0xE0, 0x90, 0x90, 0x90, 0xE0,
     0xF0, 0x80, 0xF0, 0x80, 0xF0,  0xF0, 0x80, 0xF0, 0x80, 0x80]

end Sys2Proof.Machine
end

