-- ==== Sys2Proof/Machine/State.lean ====
section
/-! DEFINITION. The state of CHIP8-CORE as plain data, its run status, its events, and the launch state
(10_state.md R10 to R29, R36). INVENTORY.md lists every field with its rule and reset value. -/

namespace Sys2Proof.Machine

/-- Why the interface's step would stop with a fault. NOBODY raises one: the spec gives every event of the hardware
its effect on the state (60_exceptions.md R120, R128), the MEM_BOUNDS and call-stack aborts included, so each of them
is a next state with `RUN = FAULTED` (log 4). Safe: there is no fault to hide a behaviour behind. -/
inductive Fault
  deriving DecidableEq, Repr

/-- Why the interface's step would refuse an instruction. -/
inductive Refusal where
  /-- Reserved for an instruction that has no meaning yet, by its mnemonic. NOBODY raises it: every instruction of the
  opcode table has its meaning. Safe. -/
  | notModelled (mnemonic : String)
  deriving DecidableEq, Repr

/-- `RUN`, the run status (10_state.md R26, R27). -/
inductive RunStatus where
  | running
  | stopped
  | faulted
  deriving DecidableEq, Repr

/-- What the host raises next: the input ports (10_state.md R30 to R32). -/
inductive Arrival where
  /-- The pacing loop asks for one instruction cycle (R30). -/
  | cycle
  /-- One period of the 60 Hz timing source (R31). -/
  | tick60
  /-- The explicit quit signal (R32). -/
  | quit
  deriving DecidableEq, Repr

/-- The output events of the event history (10_state.md R33, R36). -/
inductive OutEvent where
  /-- The redraw signal to the presentation collaborator (R33). -/
  | redraw
  /-- The unknown-opcode report, event code 3, with the raw word (R36, 60_exceptions.md R122). -/
  | reportUnknown (w : Word)
  deriving DecidableEq, Repr

/-- The framebuffer: 32 rows of 64 one-bit cells, top row first; the cell in column `x` of a row is its bit `x`, on is 1
(10_state.md R21, decision D22; log 9). -/
abbrev Framebuffer := Vector (BitVec 64) 32

/-- Everything the spec gives the machine, and, last, what the model holds of its surroundings. -/
structure State where
  /-- `V[0]` to `V[15]` (10_state.md R10). -/
  v : Vector Byte 16
  /-- `I`, the index register (R17). -/
  i : Word
  /-- `PC`, the program counter (R14). -/
  pc : Word
  /-- `STACK[0]` to `STACK[63]` (R18). -/
  stack : Vector Word 64
  /-- `SP`, the call-stack depth, 0 to 64 (R19; log 6). -/
  sp : Fin 65
  /-- `DT`, the delay timer (R20). -/
  dt : Byte
  /-- `ST`, the sound timer (R20). -/
  st : Byte
  /-- `FB` (R21). -/
  fb : Framebuffer
  /-- `MEM` (R22) as a canonical list of the cells that differ from what an unlisted address reads as
  (Machine/Memory.lean). -/
  mem : List Host.Cell
  /-- `RUN` (R26, R27). -/
  run : RunStatus
  /-- `CAUSE`, 3 bits (R28). -/
  cause : BitVec 3
  /-- `CAUSE_INFO` (R28). -/
  causeInfo : Word
  /-- The event history, oldest first: an observation aid that no step reads (R36). -/
  history : List OutEvent
  /-- `GLYPH_TABLE`, the open launch parameter (00_scope.md R7, 70_reset_and_hazards.md R143; log 3): no step
  changes it, and a statement about every state holds for every table. -/
  glyphTable : GlyphTable
  /-- The MODEL's own field: the events the host raises next, first one first, in an order the spec leaves open
  (R37, decision D9; log 1). An empty list stands for `cycle` events only (log 2). -/
  arrivals : List Arrival
  deriving DecidableEq, Repr

/-- A framebuffer with every cell off. -/
def Framebuffer.clear : Framebuffer := Vector.replicate 32 0

/-- The machine right after reset (10_state.md R29): the launch state for the empty ROM and the default glyph table
(log 3, log 10). -/
def State.reset : State where
  v := Vector.replicate 16 0
  i := 0
  pc := 0x200
  stack := Vector.replicate 64 0
  sp := 0
  dt := 0
  st := 0
  fb := Framebuffer.clear
  mem := []
  run := .running
  cause := 0
  causeInfo := 0
  history := []
  glyphTable := defaultGlyphTable
  arrivals := []

end Sys2Proof.Machine
end

