-- ==== Sys2Proof/Machine/Ops.lean ====
section
/-! DEFINITION. The operations every meaning is built from: the named updates of the state, the memory datapath
(20_memory.md R44 to R46), the framebuffer port (10_state.md R34), the output events (R33, R36), the status port
(R35), the fetch (40_fetch_dispatch.md R80 to R83) and the one operation that takes an event (60_exceptions.md R120,
R128). -/

namespace Sys2Proof.Machine

/-! ## Named updates of the state -/

/-- `PC <- w`. -/
def State.setPc (w : Word) (s : State) : State := { s with pc := w }

/-- `I <- w`. -/
def State.setI (w : Word) (s : State) : State := { s with i := w }

/-- Replace the register file. -/
def State.setV (v : Vector Byte 16) (s : State) : State := { s with v := v }

/-- Replace the framebuffer. -/
def State.setFb (fb : Framebuffer) (s : State) : State := { s with fb := fb }

/-- Replace the list of memory cells. -/
def State.setMem (m : Memory) (s : State) : State := { s with mem := m }

/-- `DT <- d`, `ST <- t`. -/
def State.setTimers (d t : Byte) (s : State) : State := { s with dt := d, st := t }

/-- Replace the call stack and its depth. -/
def State.setStack (k : Vector Word 64) (d : Fin 65) (s : State) : State := { s with stack := k, sp := d }

/-- `RUN <- r`, `CAUSE <- c`, `CAUSE_INFO <- info`: the status registers, always latched together (10_state.md R28). -/
def State.setStatus (r : RunStatus) (c : BitVec 3) (info : Word) (s : State) : State :=
  { s with run := r, cause := c, causeInfo := info }

/-- `emit e`: append an output event to the event history (00_scope.md R8, 10_state.md R36). -/
def State.emit (e : OutEvent) (s : State) : State := { s with history := s.history ++ [e] }

/-- Replace the list of events the host raises next. -/
def State.setArrivals (as : List Arrival) (s : State) : State := { s with arrivals := as }

/-! ## Events (60_exceptions.md R120) -/

/-- The events that are latched in the status registers. Code 3, UNKNOWN_OPCODE, is no member: it is reported by
`emit` and "never written to `CAUSE`" (R122). -/
inductive Event where
  /-- Code 1: the fetched word was `0x0000` at this address (R121). -/
  | endOfProgram (addr : Word)
  /-- Code 2: the host's quit (R125). -/
  | quit
  /-- Code 4: an access at an address outside the memory array (R123). -/
  | memBounds (addr : Nat)
  /-- Code 5: the value that a full call stack could not take (R124). -/
  | stackOverflow (pushed : Word)
  /-- Code 6: a pop from an empty call stack (R124). -/
  | stackUnderflow
  deriving DecidableEq, Repr

/-- The code an event latches in `CAUSE` (R120, 10_state.md R28). -/
def Event.code : Event → BitVec 3
  | .endOfProgram _ => 1
  | .quit => 2
  | .memBounds _ => 4
  | .stackOverflow _ => 5
  | .stackUnderflow => 6

/-- What an event latches in `CAUSE_INFO` (R120, 10_state.md R28). A MEM_BOUNDS address is recorded "as a 16-bit
number"; every address the core passes fits (log 7). -/
def Event.info : Event → Word
  | .endOfProgram addr => addr
  | .quit => 0
  | .memBounds addr => BitVec.ofNat 16 addr
  | .stackOverflow pushed => pushed
  | .stackUnderflow => 0

/-- What an event makes of `RUN` (R120). -/
def Event.status : Event → RunStatus
  | .endOfProgram _ => .stopped
  | .quit => .stopped
  | .memBounds _ => .faulted
  | .stackOverflow _ => .faulted
  | .stackUnderflow => .faulted

/-- TAKING AN EVENT, the whole of it: "write `RUN`, `CAUSE`, `CAUSE_INFO`" (60_exceptions.md R128). No context is
saved, `PC` is left as it is, no handler runs. There is no return beside it: "there is no return-from-trap instruction
and nothing to restore" (R128), and `STOPPED` and `FAULTED` are terminal. -/
def State.raise (e : Event) (s : State) : State := s.setStatus e.status e.code e.info

/-- The code an output event carries: 3 for the unknown-opcode report, none for a redraw (R120, R122). -/
def OutEvent.code : OutEvent → Option (BitVec 3)
  | .redraw => none
  | .reportUnknown _ => some 3

/-! ## Output levels (10_state.md R34, R35) -/

/-- The encoding of `RUN` (10_state.md R26). -/
def RunStatus.code : RunStatus → Nat
  | .running => 0
  | .stopped => 1
  | .faulted => 2

/-- The status port: the current `RUN`, `CAUSE`, `CAUSE_INFO` (R35). -/
def State.statusPort (s : State) : Nat × BitVec 3 × Word := (s.run.code, s.cause, s.causeInfo)

/-! ## The memory datapath -/

/-- The byte `MEM[a]`, with no range check: how the model looks at its memory. -/
def State.byteAt (s : State) (a : Nat) : Byte := Memory.read s.glyphTable s.mem a

/-- `MemRead(addr, 1)` (20_memory.md R44): the byte, or the MEM_BOUNDS event. The address is never wrapped (R46). -/
def State.memRead (addr : Nat) (s : State) : Except Event Byte :=
  if addr < Config.memSize then .ok (s.byteAt addr) else .error (.memBounds addr)

/-- Store a byte with no range check. -/
def State.storeByte (a : Nat) (b : Byte) (s : State) : State := s.setMem (Memory.write s.glyphTable s.mem a b)

/-- `MemWrite(addr, 1, b)` (20_memory.md R45): the store, or the MEM_BOUNDS event. No instruction calls it. -/
def State.memWrite (addr : Nat) (b : Byte) (s : State) : Except Event State :=
  if addr < Config.memSize then .ok (s.storeByte addr b) else .error (.memBounds addr)

/-! ## The framebuffer port (10_state.md R34) -/

/-- `FbClear()`. -/
def State.fbClear (s : State) : State := s.setFb Framebuffer.clear

/-- `FbRead(x, y)`: the cell `FB[y][x]`. -/
def State.fbRead (x : Column) (y : Row) (s : State) : Bool := s.fb[y].getLsbD x.val

/-- A row of cells with the one in column `x` replaced. -/
def setCell (r : BitVec 64) (x : Column) (b : Bool) : BitVec 64 :=
  if b then r ||| BitVec.twoPow 64 x.val else r &&& ~~~BitVec.twoPow 64 x.val

/-- `FbWrite(x, y, b)`: `FB[y][x] <- b`. -/
def State.fbWrite (x : Column) (y : Row) (b : Bool) (s : State) : State :=
  s.setFb (s.fb.set y (setCell s.fb[y] x b))

/-! ## Fetch (40_fetch_dispatch.md R80 to R83) -/

/-- The two byte reads of a fetch. With `PC = 4095` the event comes "before reading either byte" (R82). -/
def State.fetch (s : State) : Except Event Word :=
  if s.pc.toNat + 1 < Config.memSize then
    match s.memRead s.pc.toNat with
    | .error e => .error e
    | .ok hi =>
      match s.memRead (s.pc.toNat + 1) with
      | .error e => .error e
      | .ok lo => .ok (wordOfBytes hi lo)
  else .error (.memBounds (s.pc.toNat + 1))

/-- `PC <- PC + 2`, the unconditional advance of a successful fetch (R83). -/
def State.advancePc (s : State) : State := s.setPc (s.pc + BitVec.ofNat 16 Config.instrBytes)

/-! ## Arrivals (10_state.md R30 to R32, R37) -/

/-- The event the host raises next; with nothing listed it raises `cycle` (DESIGN CHOICE, log 2). -/
def State.nextArrival (s : State) : Arrival := s.arrivals.headD .cycle

/-- The state in which the next event has been taken off the list. -/
def State.takeArrival (s : State) : State := s.setArrivals s.arrivals.tail

/-! ## Placing an instruction where the next step fetches it -/

/-- A state whose next step is a cycle that fetches at `PC`: `RUN = RUNNING`, a `cycle` event first, and `PC` where a
whole word can be fetched. Each part is left alone where it already is so. -/
def State.readyToFetch (s : State) : State :=
  let s := if s.run = .running then s else s.setStatus .running 0 0
  let s := if s.nextArrival = .cycle then s else s.setArrivals (.cycle :: s.arrivals)
  if s.pc.toNat + 1 < Config.memSize then s else s.setPc (BitVec.ofNat 16 Config.progBase)

/-- Store a word at `PC` and `PC + 1`, high byte first (20_memory.md R42). -/
def State.storeWordAtPc (w : Word) (s : State) : State :=
  (s.storeByte s.pc.toNat w.highByte).storeByte (s.pc.toNat + 1) w.lowByte

end Sys2Proof.Machine
end

