-- ==== Sys2Proof/Machine/Agents.lean ====
section
/-! DEFINITION. The steps of the agents other than the core: the timer tick (60_exceptions.md R132) and the host's quit
(R125). -/

namespace Sys2Proof.Machine

/-- The countdown of one timer: a timer at 0 stays at 0, there is no wrap to 255 (60_exceptions.md R132). -/
def countDown (t : Byte) : Byte := if t = 0 then 0 else t - 1

/-- `Tick60()` (60_exceptions.md R132): one tick decrements both timers and touches nothing else. -/
def tickStep (s : State) : State := s.setTimers (countDown s.dt) (countDown s.st)

/-- The quit step (60_exceptions.md R125): `RUN <- STOPPED`, `CAUSE <- 2`, `CAUSE_INFO <- 0`, nothing else. -/
def quitStep (s : State) : State := s.raise .quit

end Sys2Proof.Machine
end

