-- ==== Sys2Proof/Machine/Operands.lean ====
section
/-! DEFINITION. The operand forms: a general register (10_state.md R10), an immediate extended to 16 bits
(30_encoding.md R63), the 8-bit addition (41_flow_and_registers.md R90), and the coordinates and pixels of a sprite
(42_display.md R102, R103). -/

namespace Sys2Proof.Machine

/-- `V[r]`: every index names a register, no register is hardwired (10_state.md R10). -/
def State.readV (r : RegName) (s : State) : Byte := s.v[r]

/-- `V[r] <- b` (10_state.md R10). -/
def State.writeV (r : RegName) (b : Byte) (s : State) : State := s.setV (s.v.set r b)

/-- `zext_16(NNN)` (30_encoding.md R63, 00_scope.md R8). -/
def zext16 (nnn : BitVec 12) : Word := nnn.zeroExtend 16

/-- `(a + b) mod 256`, carry discarded and recorded nowhere (41_flow_and_registers.md R90). -/
def addBytes (a b : Byte) : Byte := BitVec.ofNat 8 ((a.toNat + b.toNat) % 256)

/-- `v mod 64`: a sprite origin's column (42_display.md R103). -/
def originColumn (b : Byte) : Column := Fin.ofNat 64 b.toNat

/-- `v mod 32`: a sprite origin's row (42_display.md R103). -/
def originRow (b : Byte) : Row := Fin.ofNat 32 b.toNat

/-- `(x0 + col) mod 64`: wrap, do not clip (42_display.md R103, R105). -/
def wrapColumn (x0 : Column) (col : Nat) : Column := Fin.ofNat 64 (x0.val + col)

/-- `(y0 + row) mod 32`: wrap, do not clip (42_display.md R103, R105). -/
def wrapRow (y0 : Row) (row : Nat) : Row := Fin.ofNat 32 (y0.val + row)

/-- The pixel of a sprite byte in column `col`: bit `7 - col`, so column 0 is the most significant bit
(20_memory.md R43, 42_display.md R102). -/
def spritePixel (b : Byte) (col : Nat) : Bool := b.getLsbD (7 - col)

/-- The address of a sprite row: a natural-number sum, not wrapped (42_display.md R104). -/
def spriteAddress (s : State) (row : Nat) : Nat := s.i.toNat + row

end Sys2Proof.Machine
end

