-- ==== Sys2Proof/Machine/Flags.lean ====
section
/-! DEFINITION. The one flag of the core: the collision flag, held in VF (10_state.md R12, 42_display.md R103). There is
no status register and no condition code, and no other instruction writes a flag. -/

namespace Sys2Proof.Machine

/-- `VF <- 0`, before drawing (42_display.md R103). -/
def State.clearCollision (s : State) : State := s.writeV vf 0

/-- "if that cell is already on, set `V[F] := 1`", sticky: it is never set back (42_display.md R103). -/
def State.noteCollision (wasOn : Bool) (s : State) : State := if wasOn then s.writeV vf 1 else s

end Sys2Proof.Machine
end

