-- ==== Sys2Proof/Machine/Display.lean ====
section
/-! DEFINITION. The meanings of CLS and DRAW (42_display.md R101 to R107). -/

namespace Sys2Proof.Machine

/-- CLS (42_display.md R101): every cell off, then one `redraw`, on a clear screen too. -/
def execCls (s : State) : Host.Outcome State Fault Refusal :=
  .next (s.fbClear.emit .redraw)

/-- XOR-toggle one cell, noting a collision first if it was on (42_display.md R103). -/
def State.toggleCell (x : Column) (y : Row) (s : State) : State :=
  (s.noteCollision (s.fbRead x y)).fbWrite x y (xor (s.fbRead x y) true)

/-- One pixel of a sprite row: a 1 bit toggles its cell, a 0 bit leaves it untouched (42_display.md R103). -/
def State.drawPixel (x : Column) (y : Row) (b : Byte) (s : State) (col : Nat) : State :=
  if spritePixel b col then s.toggleCell (wrapColumn x col) y else s

/-- One sprite row: its 8 pixels from the left (42_display.md R103). -/
def State.drawRow (x : Column) (y : Row) (b : Byte) (s : State) : State :=
  (List.range 8).foldl (State.drawPixel x y b) s

/-- The row loop of DRAW from row `row` with `left` rows to go. A row whose byte lies past the memory array ends the
step with MEM_BOUNDS, the rows before it drawn and no `redraw` emitted (42_display.md R104); after all rows there is
one `redraw` (R107). -/
def State.drawRows (x0 : Column) (y0 : Row) : (row left : Nat) → State → State
  | _, 0, s => s.emit .redraw
  | row, left + 1, s =>
    match s.memRead (spriteAddress s row) with
    | .error e => s.raise e
    | .ok b => State.drawRows x0 y0 (row + 1) left (s.drawRow x0 (wrapRow y0 row) b)

/-- DRAW (42_display.md R103): the origin is read before VF is cleared (decision D11), then `N` rows are drawn. -/
def execDraw (x y : RegName) (n : BitVec 4) (s : State) : Host.Outcome State Fault Refusal :=
  let x0 := originColumn (s.readV x)
  let y0 := originRow (s.readV y)
  .next (State.drawRows x0 y0 0 n.toNat s.clearCollision)

end Sys2Proof.Machine
end

