-- ==== Sys2Proof/Machine/Flow.lean ====
section
/-! DEFINITION. The meanings of END, JUMP and UNKNOWN (40_fetch_dispatch.md R84, R86; 41_flow_and_registers.md R91).
Each runs after fetch has written `PC <- PC + 2` (40_fetch_dispatch.md R80). -/

namespace Sys2Proof.Machine

/-- END (40_fetch_dispatch.md R84): `RUN <- STOPPED`, `CAUSE <- 1`, `CAUSE_INFO <- PC - 2`, nothing else. -/
def execEndOfProgram (s : State) : Host.Outcome State Fault Refusal :=
  .next (s.raise (.endOfProgram (s.pc - 2)))

/-- JUMP (41_flow_and_registers.md R91): `PC <- zext_16(NNN)`, overwriting fetch's advance. -/
def execJump (nnn : BitVec 12) (s : State) : Host.Outcome State Fault Refusal :=
  .next (s.setPc (zext16 nnn))

/-- UNKNOWN (40_fetch_dispatch.md R86): one report of the raw word, nothing latched, nothing else changed. -/
def execUnknown (w : Word) (s : State) : Host.Outcome State Fault Refusal :=
  .next (s.emit (.reportUnknown w))

end Sys2Proof.Machine
end

