-- ==== Sys2Proof/Machine/Register.lean ====
section
/-! DEFINITION. The meanings of SETR, ADDI and SETI (41_flow_and_registers.md R92 to R94). -/

namespace Sys2Proof.Machine

/-- SETR (41_flow_and_registers.md R92): `V[X] <- NN`. -/
def execSetr (x : RegName) (nn : Byte) (s : State) : Host.Outcome State Fault Refusal :=
  .next (s.writeV x nn)

/-- ADDI (41_flow_and_registers.md R93): `V[X] <- (V[X] + NN) mod 256`; no flag is written. -/
def execAddi (x : RegName) (nn : Byte) (s : State) : Host.Outcome State Fault Refusal :=
  .next (s.writeV x (addBytes (s.readV x) nn))

/-- SETI (41_flow_and_registers.md R94): `I <- zext_16(NNN)`; no memory is read, no range is checked. -/
def execSeti (nnn : BitVec 12) (s : State) : Host.Outcome State Fault Refusal :=
  .next (s.setI (zext16 nnn))

end Sys2Proof.Machine
end

