-- ==== Sys2Proof/Machine/Dispatch.lean ====
section
/-! DEFINITION. The dispatch of a decoded instruction to its meaning: exactly one arm runs per cycle
(40_fetch_dispatch.md R85). -/

namespace Sys2Proof.Machine

/-- One instruction, run after fetch has written `PC <- PC + 2` (40_fetch_dispatch.md R80). -/
def exec (i : Instr) (s : State) : Host.Outcome State Fault Refusal :=
  match i with
  | .endOfProgram => Sys2Proof.Machine.execEndOfProgram s
  | .cls => Sys2Proof.Machine.execCls s
  | .jump nnn => Sys2Proof.Machine.execJump nnn s
  | .setr x nn => Sys2Proof.Machine.execSetr x nn s
  | .addi x nn => Sys2Proof.Machine.execAddi x nn s
  | .seti nnn => Sys2Proof.Machine.execSeti nnn s
  | .draw x y n => Sys2Proof.Machine.execDraw x y n s
  | .unknown w => Sys2Proof.Machine.execUnknown w s

end Sys2Proof.Machine
end

