-- ==== Sys2Proof/Machine/Cycle.lean ====
section
/-! DEFINITION. The cycle step of the core and the choice of the agent that moves (40_fetch_dispatch.md R80,
10_state.md R37). -/

namespace Sys2Proof.Machine

/-- `Cycle()` (40_fetch_dispatch.md R80), its tests in the priority order of 60_exceptions.md R127: the halted guard
changes nothing (R81); a fetch that runs past the array aborts with `PC` unchanged (R82); otherwise `PC` is advanced and
the decoded word runs, END included (R84 is the first row of the decoder). -/
def cycleStep (s : State) : Host.Outcome State Fault Refusal :=
  if Config.memSize ≤ s.pc.toNat then .next s
  else
    match s.fetch with
    | .error e => .next (s.raise e)
    | .ok ir => exec (decodeWord ir) s.advancePc

/-- One step of one agent (10_state.md R37): once `RUN` has left `RUNNING` no event is taken and nothing changes;
otherwise the next event is taken. -/
def agentStep (s : State) : Host.Outcome State Fault Refusal :=
  if s.run = .running then
    match s.nextArrival with
    | .cycle => cycleStep s.takeArrival
    | .tick60 => .next (tickStep s.takeArrival)
    | .quit => .next (quitStep s.takeArrival)
  else .next s

end Sys2Proof.Machine
end

