-- ==== Sys2Proof/Machine/Step.lean ====
section
/-! DEFINITION. One step of the machine, and the host's way to place an instruction where the next step fetches it. -/

namespace Sys2Proof.Machine

/-- One step: the next event is taken by its agent (10_state.md R37, 40_fetch_dispatch.md R80). -/
def step (s : State) : Host.Outcome State Fault Refusal := agentStep s

/-- The state whose very next step is a cycle that fetches and runs the opcode-table word `w` of `nbits` bits. From
`State.reset` only the two bytes at `PC` are stored (log 10). -/
def State.withFetchWord (s : State) (nbits w : Nat) : State :=
  s.readyToFetch.storeWordAtPc (BitVec.ofNat 16 (w % 2 ^ nbits))

end Sys2Proof.Machine
end

