-- ==== Sys2Proof/Machine/CallStack.lean ====
section
/-! DEFINITION. The call-stack control primitives (43_call_stack.md R110, R111). No instruction invokes them (R113). -/

namespace Sys2Proof.Machine

/-- `StackPush(a)` (43_call_stack.md R110): write `STACK[SP]`, then `SP <- SP + 1`; a full stack raises
STACK_OVERFLOW and writes nothing. -/
def State.stackPush (a : Word) (s : State) : Except Event State :=
  if h : s.sp.val = Config.stackCap then .error (.stackOverflow a)
  else
    have hlt : s.sp.val < 64 := by have := s.sp.isLt; simp at h; omega
    .ok (s.setStack (s.stack.set s.sp.val a) ⟨s.sp.val + 1, by omega⟩)

/-- `StackPop()` (43_call_stack.md R111): `SP <- SP - 1`, return `STACK[SP]`; an empty stack raises STACK_UNDERFLOW
and changes nothing; the popped slot keeps its value. -/
def State.stackPop (s : State) : Except Event (Word × State) :=
  if h : s.sp.val = 0 then .error .stackUnderflow
  else
    have hlt : s.sp.val - 1 < 64 := by have := s.sp.isLt; omega
    .ok (s.stack[s.sp.val - 1], s.setStack s.stack ⟨s.sp.val - 1, by omega⟩)

/-- A step that pushes: the event, if one is raised, is taken (60_exceptions.md R124). -/
def State.pushStep (a : Word) (s : State) : State :=
  match s.stackPush a with
  | .ok s' => s'
  | .error e => s.raise e

/-- A step that pops, with the value popped if there is one (60_exceptions.md R124). -/
def State.popStep (s : State) : Option Word × State :=
  match s.stackPop with
  | .ok (a, s') => (some a, s')
  | .error e => (none, s.raise e)

end Sys2Proof.Machine
end

