-- ==== Sys2Proof/Machine/Loader.lean ====
section
/-! DEFINITION. The reset sequence, run by the loader before the first cycle (70_reset_and_hazards.md R140 to R144). It
is the only caller of `MemWrite`. -/

namespace Sys2Proof.Machine

/-- The cells of an all-zero memory array under a glyph table: 0 is listed wherever the table's byte is not 0. -/
def Memory.zeroed (g : GlyphTable) : Memory :=
  (List.range Config.glyphBytes).foldl (fun m k => Memory.write g m (Config.glyphBase + k) 0) []

/-- Reset step 1 (70_reset_and_hazards.md R140): everything zeroed, for a given launch parameter `GLYPH_TABLE`. -/
def zeroedState (g : GlyphTable) : State where
  v := Vector.replicate 16 0
  i := 0
  pc := 0
  stack := Vector.replicate 64 0
  sp := 0
  dt := 0
  st := 0
  fb := Framebuffer.clear
  mem := Memory.zeroed g
  run := .running
  cause := 0
  causeInfo := 0
  history := []
  glyphTable := g
  arrivals := []

/-- `MemWrite` of a sequence of bytes at consecutive addresses. -/
def loadBytes : Nat → List Byte → State → Except Event State
  | _, [], s => .ok s
  | a, b :: bs, s =>
    match s.memWrite a b with
    | .error e => .error e
    | .ok s' => loadBytes (a + 1) bs s'

/-- Reset step 2 (R141): `load_glyphs()` writes the 80-byte glyph table at 0x050. -/
def loadGlyphs (s : State) : Except Event State := loadBytes Config.glyphBase s.glyphTable.toList s

/-- Reset step 3 (R142): `load_program(bytes)` copies the ROM verbatim from 0x200. -/
def loadProgram (rom : List Byte) (s : State) : Except Event State := loadBytes Config.progBase rom s

/-- Reset step 4 (R144): `PC <- 0x200`, `RUN <- RUNNING`. -/
def startRun (s : State) : State := (s.setPc (BitVec.ofNat 16 Config.progBase)).setStatus .running 0 0

/-- The whole reset sequence for one choice of `GLYPH_TABLE` and `ROM`: the launch state, or no launch where the ROM is
longer than 3584 bytes ("must validate size before copying", R142; decision D14). -/
def launch (g : GlyphTable) (rom : List Byte) : Option State :=
  if rom.length ≤ Config.romMax then
    match loadGlyphs (zeroedState g) with
    | .error _ => none
    | .ok s =>
      match loadProgram rom s with
      | .error _ => none
      | .ok s' => some (startRun s')
  else none

end Sys2Proof.Machine
end

