-- ==== Sys2Proof/Safety.lean ====
section
/-! DEFINITION. The terms claims are stated in: the ends of a run (40_fetch_dispatch.md R88), the invariant of reachable
states (10_state.md R38), which parts of the state a step left alone, a state whose next step fetches a given word, the
set of cells under a sprite (42_display.md R106), the state that decides the path of a program
(41_flow_and_registers.md R95), and the abstract call stack (43_call_stack.md R112). -/

namespace Sys2Proof.Machine

/-! ## The ends of a run -/

/-- A run ends well exactly when `RUN = STOPPED` (40_fetch_dispatch.md R88). -/
def State.endedWell (s : State) : Prop := s.run = .stopped

/-- A run that reaches `RUN = FAULTED` has aborted and is never a good end (10_state.md R27, 40_fetch_dispatch.md R88). -/
def State.aborted (s : State) : Prop := s.run = .faulted

/-- The halted condition, `RUN = RUNNING and PC >= 4096` (00_scope.md R9, 40_fetch_dispatch.md R81): a hang, no good end. -/
def State.halted (s : State) : Prop := s.run = .running ∧ Config.memSize ≤ s.pc.toNat

/-! ## The invariant of reachable states (10_state.md R38) -/

/-- What holds in every state reachable from a launch state (10_state.md R38), and that memory keeps its canonical
form. -/
structure State.Inv (s : State) : Prop where
  pc_range : s.pc.toNat ≤ 4096
  i_range : s.i.toNat ≤ 4095
  sp_zero : s.sp = 0
  stack_zero : ∀ k : Fin 64, s.stack[k] = 0
  dt_zero : s.dt = 0
  st_zero : s.st = 0
  mem_wf : Memory.wf s.glyphTable s.mem
  cause_zero_iff_running : s.cause = 0 ↔ s.run = .running
  no_stack_event : s.cause ≠ 5 ∧ s.cause ≠ 6

/-! ## What a step left alone -/

/-- The parts of the state a frame speaks of. -/
inductive Part where
  /-- The general registers `V[0]` to `V[15]`, VF among them. -/
  | v
  /-- `I`. -/
  | i
  /-- `PC`. -/
  | pc
  /-- `STACK` and `SP`. -/
  | stack
  /-- `DT` and `ST`. -/
  | timers
  /-- Every framebuffer cell. -/
  | fb
  /-- Every byte of memory, and the launch parameter `GLYPH_TABLE`. -/
  | mem
  /-- `RUN`, `CAUSE`, `CAUSE_INFO`. -/
  | status
  /-- The event history. -/
  | history
  /-- The events the host raises next. -/
  | arrivals
  deriving DecidableEq, Repr

/-- Every part that is not in the list is the same in `t` as in `s`: each register, each cell, and each byte of memory
by the model's read of it. -/
structure Untouched (changed : List Part) (s t : State) : Prop where
  v : Part.v ∉ changed → ∀ r, t.readV r = s.readV r
  i : Part.i ∉ changed → t.i = s.i
  pc : Part.pc ∉ changed → t.pc = s.pc
  stack : Part.stack ∉ changed → t.stack = s.stack ∧ t.sp = s.sp
  timers : Part.timers ∉ changed → t.dt = s.dt ∧ t.st = s.st
  fb : Part.fb ∉ changed → ∀ x y, t.fbRead x y = s.fbRead x y
  mem : Part.mem ∉ changed → t.glyphTable = s.glyphTable ∧ ∀ a, t.byteAt a = s.byteAt a
  status : Part.status ∉ changed → t.run = s.run ∧ t.cause = s.cause ∧ t.causeInfo = s.causeInfo
  history : Part.history ∉ changed → t.history = s.history
  arrivals : Part.arrivals ∉ changed → t.arrivals = s.arrivals

/-! ## From memory to a meaning -/

/-- The next step of `s` is a cycle that fetches the word `w`: `RUN = RUNNING`, the host raises `cycle`, `PC` is at most
4094 and the bytes at `PC` and `PC + 1` are the word's, high byte first. -/
structure Fetches (s : State) (w : Word) : Prop where
  running : s.run = .running
  cycle : s.nextArrival = .cycle
  in_range : s.pc.toNat ≤ 4094
  word : (s.byteAt s.pc.toNat).toNat * 256 + (s.byteAt (s.pc.toNat + 1)).toNat = w.toNat

/-- What fetch has made of a state when the instruction starts: `PC` advanced by 2 (10_state.md R14), the `cycle` event
taken off the list. -/
def State.afterFetch (s : State) : State := { s with pc := s.pc + 2, arrivals := s.arrivals.tail }

/-- A word decodes to an instruction, and a cycle that fetches the word is that instruction's meaning run after
fetch. -/
def WordRuns (w : Word) (i : Instr) : Prop :=
  decodeWord w = i ∧ ∀ s, Fetches s w → step s = exec i s.afterFetch

/-! ## The cells under a sprite (42_display.md R106) -/

/-- `S[cy][cx]` for the first `rows` rows of the sprite at `I`, its origin at column `x0`, row `y0`: some `(row, col)`
whose bit `7 - col` of `MEM[I + row]` is 1 lands on the cell. -/
def spriteMask (s : State) (x0 y0 rows : Nat) (cx : Column) (cy : Row) : Bool :=
  (List.range rows).any fun row => (List.range 8).any fun col =>
    (s.byteAt (s.i.toNat + row)).getLsbD (7 - col) && (x0 + col) % 64 == cx.val && (y0 + row) % 32 == cy.val

/-- The first `rows` rows of DRAW's sprite have been drawn, from `s` to `t`: every cell is toggled under the sprite, and
VF is 1 exactly when a cell that was on lies under it (42_display.md R106). -/
def Drawn (x y : RegName) (rows : Nat) (s t : State) : Prop :=
  let mask := spriteMask s ((s.readV x).toNat % 64) ((s.readV y).toNat % 32) rows
  (∀ cx cy, t.fbRead cx cy = xor (s.fbRead cx cy) (mask cx cy)) ∧
  t.readV vf = (if ∃ cx cy, s.fbRead cx cy = true ∧ mask cx cy = true then 1 else 0) ∧
  ∀ r, r ≠ vf → t.readV r = s.readV r

/-! ## What decides the path of a program (41_flow_and_registers.md R95) -/

/-- Two states that agree on everything that decides where a program goes and how its run ends: `PC`, `I`, the status
registers, memory and the order of the host's events. The general registers, the framebuffer, the timers, the call stack
and the history may differ. -/
structure SamePath (s t : State) : Prop where
  pc : s.pc = t.pc
  i : s.i = t.i
  run : s.run = t.run
  cause : s.cause = t.cause
  causeInfo : s.causeInfo = t.causeInfo
  mem : ∀ a, s.byteAt a = t.byteAt a
  arrivals : s.arrivals = t.arrivals

/-! ## The abstract call stack (43_call_stack.md R112) -/

/-- One use of the call-stack primitives. -/
inductive StackOp where
  | push (a : Word)
  | pop
  deriving DecidableEq, Repr

/-- A sequence of uses of the primitives, ending at the first event raised: the values popped, in order, and the last
state. -/
def runStack : List StackOp → State → Except Event (List Word × State)
  | [], s => .ok ([], s)
  | .push a :: ops, s =>
    match s.stackPush a with
    | .error e => .error e
    | .ok s' => runStack ops s'
  | .pop :: ops, s =>
    match s.stackPop with
    | .error e => .error e
    | .ok (a, s') =>
      match runStack ops s' with
      | .error e => .error e
      | .ok (out, s'') => .ok (a :: out, s'')

/-- The same sequence on a plain list, newest entry first, of capacity 64. -/
def runList : List StackOp → List Word → Except Event (List Word × List Word)
  | [], k => .ok ([], k)
  | .push a :: ops, k => if k.length = 64 then .error (.stackOverflow a) else runList ops (a :: k)
  | .pop :: _, [] => .error .stackUnderflow
  | .pop :: ops, a :: k =>
    match runList ops k with
    | .error e => .error e
    | .ok (out, k') => .ok (a :: out, k')

/-- The valid entries of the call stack, newest first: `STACK[SP - 1]` down to `STACK[0]` (10_state.md R19). -/
def State.stackList (s : State) : List Word := (s.stack.toList.take s.sp.val).reverse

end Sys2Proof.Machine
end

