-- ==== Sys2Proof/Certificates/Slice0/Obligations.lean ====
section
/-! DEFINITION. The statements for the provers. `Fetches`, `WordRuns`, `Untouched`, `Drawn`, `SamePath` and the other
terms they use are in Sys2Proof/Safety.lean. -/

open Sys2Proof Sys2Proof.Machine

/-! ## Encoding -/

/-- Decoding the encoding of a well-formed instruction gives it back, whatever bytes follow (30_encoding.md R64,
R69). -/
def Obligations.DecodeOfEncode : Prop :=
  ∀ i : Instr, i.wellFormed = true →
    decodeWord (encodeWord i) = i ∧ ∀ rest : List Byte, decode (encode i ++ rest) = .ok (i, rest)

/-- Every word decodes to a well-formed instruction that encodes to the word: no bit is dropped, decoding is total
(30_encoding.md R67). -/
def Obligations.EncodeOfDecode : Prop :=
  ∀ w : Word, (decodeWord w).wellFormed = true ∧ encodeWord (decodeWord w) = w

/-- The decoder picks the first row of the opcode map that matches, and rows 1 to 7 are disjoint (30_encoding.md
R64). -/
def Obligations.DecoderFollowsOpcodeMap : Prop :=
  (∀ w : Word, (firstRow opcodeMap w).map (·.mnemonic) = some (decodeWord w).mnemonic) ∧
  (opcodeMap.take 7).Pairwise (fun a b => ∀ w : Word, ¬(a.selects w = true ∧ b.selects w = true))

/-- The dispatch by top nibble with every operand read from its place in the word (40_fetch_dispatch.md R85), family 0
compared on all 16 bits (30_encoding.md R66), fields given by arithmetic on the word's value. -/
def Obligations.DispatchByTopNibble : Prop :=
  ∀ w : Word, w ≠ 0 →
    (w.toNat / 4096 = 0x0 → decodeWord w = if w = 0x00E0#16 then .cls else .unknown w) ∧
    (w.toNat / 4096 = 0x1 → ∃ nnn : BitVec 12, decodeWord w = .jump nnn ∧ nnn.toNat = w.toNat % 4096) ∧
    (w.toNat / 4096 = 0x6 → ∃ (x : RegName) (nn : Byte),
      decodeWord w = .setr x nn ∧ x.val = w.toNat / 256 % 16 ∧ nn.toNat = w.toNat % 256) ∧
    (w.toNat / 4096 = 0x7 → ∃ (x : RegName) (nn : Byte),
      decodeWord w = .addi x nn ∧ x.val = w.toNat / 256 % 16 ∧ nn.toNat = w.toNat % 256) ∧
    (w.toNat / 4096 = 0xA → ∃ nnn : BitVec 12, decodeWord w = .seti nnn ∧ nnn.toNat = w.toNat % 4096) ∧
    (w.toNat / 4096 = 0xD → ∃ (x y : RegName) (n : BitVec 4), decodeWord w = .draw x y n ∧
      x.val = w.toNat / 256 % 16 ∧ y.val = w.toNat / 16 % 16 ∧ n.toNat = w.toNat % 16) ∧
    (w.toNat / 4096 ∈ [0x2, 0x3, 0x4, 0x5, 0x8, 0x9, 0xB, 0xC, 0xE, 0xF] → decodeWord w = .unknown w)

/-- Words of 95_test_vectors.md, Decode, one for each row of the opcode map and more for family 0. -/
def Obligations.SampleWordsDecode : Prop :=
  decodeWord 0x0000#16 = .endOfProgram ∧ decodeWord 0x00E0#16 = .cls ∧ decodeWord 0x1FFF#16 = .jump 0xFFF#12 ∧
  decodeWord 0x6FAB#16 = .setr 15 0xAB#8 ∧ decodeWord 0x7020#16 = .addi 0 0x20#8 ∧
  decodeWord 0xA23F#16 = .seti 0x23F#12 ∧ decodeWord 0xD012#16 = .draw 0 1 2#4 ∧
  decodeWord 0xDFE0#16 = .draw 15 14 0#4 ∧ decodeWord 0x01E0#16 = .unknown 0x01E0#16 ∧
  decodeWord 0x00EE#16 = .unknown 0x00EE#16 ∧ decodeWord 0x8124#16 = .unknown 0x8124#16

/-! ## Fetch and the cycle -/

/-- A cycle runs the instruction that the two bytes at `PC` decode to, after `PC` has been advanced by 2 and the `cycle`
event taken off the list (40_fetch_dispatch.md R80, R87). -/
def Obligations.StepRunsTheDecodedInstruction : Prop :=
  ∀ (s : State) (i : Instr), s.run = .running → s.nextArrival = .cycle → s.pc.toNat ≤ 4094 →
    decode [s.byteAt s.pc.toNat, s.byteAt (s.pc.toNat + 1)] = .ok (i, []) → step s = exec i s.afterFetch

/-- Fetch: two consecutive bytes, big-endian, whatever the parity of `PC`; `PC` is then larger by exactly 2, before the
word is examined (40_fetch_dispatch.md R83, 20_memory.md R42). -/
def Obligations.FetchIsBigEndianAndAdvances : Prop :=
  ∀ s : State, s.pc.toNat ≤ 4094 → ∃ w : Word, s.fetch = .ok w ∧
    w.toNat = (s.byteAt s.pc.toNat).toNat * 256 + (s.byteAt (s.pc.toNat + 1)).toNat ∧
    s.afterFetch.pc.toNat = s.pc.toNat + 2 ∧
    (s.run = .running → s.nextArrival = .cycle → step s = exec (decodeWord w) s.afterFetch)

/-- The halted condition (40_fetch_dispatch.md R81): a cycle changes nothing, for ever; only a `quit` (60_exceptions.md
R125) ends it; ticks go on being taken. For a run longer than its list of events the second clause rests on the model's
choice that an empty list stands for `cycle` (log 2, DESIGN CHOICE), which no rule of the spec states. -/
def Obligations.HaltedConditionIsANoOp : Prop :=
  (∀ s : State, s.halted → s.nextArrival = .cycle → step s = .next { s with arrivals := s.arrivals.tail }) ∧
  (∀ (k : Nat) (s t : State), s.halted → Arrival.quit ∉ s.arrivals → Sys2Proof.core.run k s = .next t →
    t.halted ∧ Untouched [.timers, .arrivals] s t) ∧
  (∀ s : State, s.halted → s.nextArrival = .tick60 → ∃ t, step s = .next t ∧ t.halted ∧
    t.dt.toNat = s.dt.toNat - 1 ∧ t.st.toNat = s.st.toNat - 1) ∧
  (∀ s : State, s.halted → s.nextArrival = .quit → ∃ t, step s = .next t ∧ t.endedWell)

/-- A fetch at `PC = 4095` aborts with nothing but the status registers changed (40_fetch_dispatch.md R82). -/
def Obligations.FetchAtLastByteAborts : Prop :=
  ∀ s : State, s.run = .running → s.nextArrival = .cycle → s.pc.toNat = 4095 →
    step s = .next { s with run := .faulted, cause := 4, causeInfo := 4096, arrivals := s.arrivals.tail }

/-- Once `RUN` is `STOPPED` or `FAULTED` no step of any agent changes any state (10_state.md R37). -/
def Obligations.EndedRunIsFrozen : Prop :=
  ∀ (k : Nat) (s : State), s.run ≠ .running → Sys2Proof.core.run k s = .next s

/-- The machine never gets stuck: every step of every state answers a next state (30_encoding.md R67, 60_exceptions.md
R128). -/
def Obligations.EveryStepAnswersANextState : Prop :=
  ∀ (k : Nat) (s : State), ∃ t, Sys2Proof.core.run k s = .next t

/-- The host's placing of a word: the very next step runs it, from any state (log 10). -/
def Obligations.PlacedWordRunsNext : Prop :=
  ∀ (s : State) (w : Word),
    step (s.withFetchWord 16 w.toNat) = exec (decodeWord w) (s.withFetchWord 16 w.toNat).afterFetch

/-! ## The instructions -/

/-- END (40_fetch_dispatch.md R84): the run stops with cause 1 and the address the word was fetched from, `PC` is 2 past
it, nothing else changes, no event is emitted and no later step is taken. -/
def Obligations.EndStopsTheRun : Prop :=
  WordRuns 0x0000#16 .endOfProgram ∧
  (∀ s : State, ∃ t, exec .endOfProgram s = .next t ∧
    t.run = .stopped ∧ t.cause = 1 ∧ t.causeInfo = s.pc - 2 ∧ Untouched [.status] s t) ∧
  (∀ s : State, Fetches s 0x0000#16 → ∃ t, step s = .next t ∧ t.endedWell ∧ t.cause = 1 ∧ t.causeInfo = s.pc ∧
    t.pc = s.pc + 2 ∧ Untouched [.status, .pc, .arrivals] s t ∧ ∀ k, Sys2Proof.core.run k t = .next t)

/-- CLS (42_display.md R101): every cell off whatever it was, exactly one `redraw`, nothing else. -/
def Obligations.ClsClearsEveryCell : Prop :=
  WordRuns 0x00E0#16 .cls ∧
  ∀ s : State, ∃ t, exec .cls s = .next t ∧ (∀ x y, t.fbRead x y = false) ∧
    t.history = s.history ++ [.redraw] ∧ Untouched [.fb, .history] s t

/-- JUMP (41_flow_and_registers.md R91): `PC` is the 12-bit target, odd or even, nothing else changes; the next fetch
reads the word at the target, or raises MEM_BOUNDS where the target is 0xFFF. -/
def Obligations.JumpWritesPcOnly : Prop :=
  ∀ nnn : BitVec 12, WordRuns (BitVec.ofNat 16 (0x1000 + nnn.toNat)) (.jump nnn) ∧
  ∀ s : State, ∃ t, exec (.jump nnn) s = .next t ∧ t.pc.toNat = nnn.toNat ∧ Untouched [.pc] s t ∧
    (nnn.toNat ≤ 4094 → ∃ w : Word, t.fetch = .ok w ∧
      w.toNat = (s.byteAt nnn.toNat).toNat * 256 + (s.byteAt (nnn.toNat + 1)).toNat) ∧
    (nnn.toNat = 4095 → t.fetch = .error (.memBounds 4096))

/-- SETR (41_flow_and_registers.md R92): `V[X]` reads back `NN` exactly, VF included, nothing else changes. -/
def Obligations.SetrWritesOneRegister : Prop :=
  ∀ (x : RegName) (nn : Byte), WordRuns (BitVec.ofNat 16 (0x6000 + x.val * 256 + nn.toNat)) (.setr x nn) ∧
  ∀ s : State, ∃ t, exec (.setr x nn) s = .next t ∧ t.readV x = nn ∧
    (∀ r, r ≠ x → t.readV r = s.readV r) ∧ Untouched [.v] s t

/-- ADDI (41_flow_and_registers.md R93): the sum modulo 256 in `V[X]`, no flag written, VF a plain register. -/
def Obligations.AddiWrapsAndWritesNoFlag : Prop :=
  ∀ (x : RegName) (nn : Byte), WordRuns (BitVec.ofNat 16 (0x7000 + x.val * 256 + nn.toNat)) (.addi x nn) ∧
  ∀ s : State, ∃ t, exec (.addi x nn) s = .next t ∧
    (t.readV x).toNat = ((s.readV x).toNat + nn.toNat) % 256 ∧
    (∀ r, r ≠ x → t.readV r = s.readV r) ∧ Untouched [.v] s t

/-- SETI (41_flow_and_registers.md R94): `I` is the 12-bit immediate with bits 15 to 12 zero, nothing else changes; no
other step writes `I`. -/
def Obligations.SetiWritesIndexOnly : Prop :=
  (∀ nnn : BitVec 12, WordRuns (BitVec.ofNat 16 (0xA000 + nnn.toNat)) (.seti nnn) ∧
    ∀ s : State, ∃ t, exec (.seti nnn) s = .next t ∧ t.i.toNat = nnn.toNat ∧ Untouched [.i] s t) ∧
  (∀ s t : State, step s = .next t → t.i ≠ s.i → ∃ w nnn, Fetches s w ∧ decodeWord w = .seti nnn)

/-- UNKNOWN, event code 3 (60_exceptions.md R122, 40_fetch_dispatch.md R86): the raw word is reported once, no register,
byte, cell or status changes, the run goes on at the following word; code 3 is carried by the report only and never
comes into `CAUSE`. -/
def Obligations.UnknownIsReportedAndSkipped : Prop :=
  (∀ w : Word, w ≠ 0x0000#16 → w ≠ 0x00E0#16 → w.toNat / 4096 ∉ [0x1, 0x6, 0x7, 0xA, 0xD] →
    WordRuns w (.unknown w)) ∧
  (∀ (w : Word) (s : State), ∃ t, exec (.unknown w) s = .next t ∧
    t.history = s.history ++ [.reportUnknown w] ∧ (OutEvent.reportUnknown w).code = some 3 ∧
    Untouched [.history] s t) ∧
  (∀ (s : State) (w : Word), Fetches s w → decodeWord w = .unknown w → ∃ t, step s = .next t ∧
    t.pc = s.pc + 2 ∧ t.history = s.history ++ [.reportUnknown w] ∧ Untouched [.history, .pc, .arrivals] s t) ∧
  (∀ s t : State, step s = .next t → s.cause ≠ 3 → t.cause ≠ 3)

/-- DRAW as one formula, for every operand (42_display.md R102, R103, R106): every cell under the sprite is toggled, VF
is the collision flag, the origin is taken from the registers as they were (VF too), one `redraw`, nothing else. -/
def Obligations.DrawTogglesTheSprite : Prop :=
  ∀ (x y : RegName) (n : BitVec 4),
  WordRuns (BitVec.ofNat 16 (0xD000 + x.val * 256 + y.val * 16 + n.toNat)) (.draw x y n) ∧
  ∀ s : State, n.toNat = 0 ∨ s.i.toNat + n.toNat ≤ 4096 → ∃ t, exec (.draw x y n) s = .next t ∧
    Drawn x y n.toNat s t ∧ t.history = s.history ++ [.redraw] ∧ Untouched [.v, .fb, .history] s t

/-- DRAW past the end of memory (42_display.md R104): MEM_BOUNDS at the first address past 4095 that a row reaches, the
rows before it drawn, VF as they left it, no `redraw`, `PC` kept; no abort where no row reaches past the end. That
address is 4096 where `I` is at most 4096; `I` itself above that, which no run reaches, is the model's reading (log 7,
DEDUCED). The exact condition for the abort is R104's own inference from R103. -/
def Obligations.DrawPastMemoryAborts : Prop :=
  (∀ (x y : RegName) (n : BitVec 4) (s : State), 1 ≤ n.toNat → 4096 < s.i.toNat + n.toNat →
    ∃ t, exec (.draw x y n) s = .next t ∧ t.run = .faulted ∧ t.cause = 4 ∧
      t.causeInfo.toNat = max 4096 s.i.toNat ∧ Drawn x y (4096 - s.i.toNat) s t ∧
      Untouched [.v, .fb, .status] s t) ∧
  (∀ (x y : RegName) (n : BitVec 4) (s t : State), s.run = .running → exec (.draw x y n) s = .next t →
    (t.run = .faulted ↔ 1 ≤ n.toNat ∧ 4096 < s.i.toNat + n.toNat))

/-- Drawing the same sprite twice at the same place restores the framebuffer, and leaves VF = 1 exactly when some cell
under the sprite was off before the first DRAW (from 42_display.md R103; R105's own sentence about VF holds only where
no cell under the sprite was on, log 11). -/
def Obligations.DrawTwiceRestoresTheScreen : Prop :=
  ∀ (x y : RegName) (n : BitVec 4) (s t u : State), x ≠ vf → y ≠ vf → s.i.toNat + n.toNat ≤ 4096 →
    exec (.draw x y n) s = .next t → exec (.draw x y n) t = .next u →
    (∀ cx cy, u.fbRead cx cy = s.fbRead cx cy) ∧
    (u.readV vf = if ∃ cx cy, s.fbRead cx cy = false ∧
        spriteMask s ((s.readV x).toNat % 64) ((s.readV y).toNat % 32) n.toNat cx cy = true then 1 else 0)

/-! ## Rules of the whole machine -/

/-- The invariant of reachable states holds after reset (10_state.md R29, R38). -/
def Obligations.ResetMeetsTheInvariant : Prop := State.reset.Inv

/-- The invariant of reachable states holds in every launch state, for every glyph table and ROM (10_state.md R29,
R38). -/
def Obligations.LaunchMeetsTheInvariant : Prop :=
  ∀ (g : GlyphTable) (rom : List Byte) (s : State), launch g rom = some s → s.Inv

/-- Every step of every agent keeps the invariant of reachable states, from every state that meets it (10_state.md
R38). -/
def Obligations.EveryStepKeepsTheInvariant : Prop :=
  ∀ s t : State, s.Inv → step s = .next t → t.Inv

/-- Whatever runs, and however the events interleave, memory keeps its contents (10_state.md R22, R38). -/
def Obligations.MemoryIsNeverWritten : Prop :=
  ∀ (k : Nat) (s t : State), Sys2Proof.core.run k s = .next t →
    t.mem = s.mem ∧ t.glyphTable = s.glyphTable ∧ ∀ a, t.byteAt a = s.byteAt a

/-- Which steps write a general register (10_state.md R11): SETR and ADDI their `V[X]`, DRAW only VF, nothing else. -/
def Obligations.OnlyNamedWritersOfRegisters : Prop :=
  ∀ (s t : State) (r : RegName), step s = .next t → t.readV r ≠ s.readV r →
    ∃ w, Fetches s w ∧ ((∃ nn, decodeWord w = .setr r nn ∨ decodeWord w = .addi r nn) ∨
      (r = vf ∧ ∃ x y n, decodeWord w = .draw x y n))

/-- How each step changes `PC` (10_state.md R15). -/
def Obligations.HowEachStepChangesPc : Prop :=
  ∀ s t : State, step s = .next t →
    (s.run ≠ .running → t.pc = s.pc) ∧ (s.nextArrival ≠ .cycle → t.pc = s.pc) ∧
    (4096 ≤ s.pc.toNat → t.pc = s.pc) ∧ (s.pc.toNat = 4095 → t.pc = s.pc) ∧
    (∀ w nnn, Fetches s w → decodeWord w = .jump nnn → t.pc.toNat = nnn.toNat) ∧
    (∀ w, Fetches s w → (∀ nnn, decodeWord w ≠ .jump nnn) → t.pc.toNat = s.pc.toNat + 2)

/-- The only ways out of `RUNNING`, with the cause each one latches, from states whose `I` is in its range
(10_state.md R26, R27, R28; 60_exceptions.md R120, R123). -/
def Obligations.EveryWayOutOfRunning : Prop :=
  ∀ s t : State, s.i.toNat ≤ 4095 → s.run = .running → step s = .next t →
    (t.run = .running ∧ t.cause = s.cause ∧ t.causeInfo = s.causeInfo) ∨
    (t.run = .stopped ∧ t.cause = 1 ∧ t.causeInfo = s.pc ∧ Fetches s 0x0000#16) ∨
    (t.run = .stopped ∧ t.cause = 2 ∧ t.causeInfo = 0 ∧ s.nextArrival = .quit) ∨
    (t.run = .faulted ∧ t.cause = 4 ∧ t.causeInfo = 4096 ∧ s.nextArrival = .cycle ∧
      (s.pc.toNat = 4095 ∨ ∃ w x y n, Fetches s w ∧ decodeWord w = .draw x y n ∧ 1 ≤ n.toNat ∧
        4096 < s.i.toNat + n.toNat))

/-- No run touches the call stack, and no run raises a call-stack event (43_call_stack.md R113). -/
def Obligations.CallStackIsNeverTouched : Prop :=
  ∀ (k : Nat) (s t : State), Sys2Proof.core.run k s = .next t →
    t.stack = s.stack ∧ t.sp = s.sp ∧ (s.cause ≠ 5 → t.cause ≠ 5) ∧ (s.cause ≠ 6 → t.cause ≠ 6)

/-- The event history grows by one `redraw` for a CLS or a DRAW that completes, by one report for an UNKNOWN, and by
nothing else (42_display.md R107; 10_state.md R33, R36). -/
def Obligations.WhoEmitsWhat : Prop :=
  ∀ s t : State, step s = .next t →
    (t.history = s.history ∧ ∀ w, Fetches s w → decodeWord w ≠ .cls ∧ decodeWord w ≠ .unknown w ∧
      ∀ x y n, decodeWord w = .draw x y n → 1 ≤ n.toNat ∧ 4096 < s.i.toNat + n.toNat) ∨
    (t.history = s.history ++ [.redraw] ∧ ∃ w, Fetches s w ∧ (decodeWord w = .cls ∨
      ∃ x y n, decodeWord w = .draw x y n ∧ (n.toNat = 0 ∨ s.i.toNat + n.toNat ≤ 4096))) ∨
    (∃ w, Fetches s w ∧ decodeWord w = .unknown w ∧ t.history = s.history ++ [.reportUnknown w])

/-- The path of a program and the end of its run do not depend on data: two runs that start with the same memory, `PC`,
`I`, status and events stay so, whatever their registers, framebuffers, timers, stacks and histories
(41_flow_and_registers.md R95, 70_reset_and_hazards.md R149). -/
def Obligations.PathIsIndependentOfData : Prop :=
  ∀ (k : Nat) (s t s' t' : State), SamePath s t → Sys2Proof.core.run k s = .next s' →
    Sys2Proof.core.run k t = .next t' → SamePath s' t'

/-! ## The other agents -/

/-- The timer step (60_exceptions.md R132): both timers count down, a timer at 0 stays at 0, nothing else changes. -/
def Obligations.TickCountsBothTimersDown : Prop :=
  ∀ s : State, s.run = .running → s.nextArrival = .tick60 → ∃ t, step s = .next t ∧
    t.dt.toNat = s.dt.toNat - 1 ∧ t.st.toNat = s.st.toNat - 1 ∧ t.arrivals = s.arrivals.tail ∧
    Untouched [.timers, .arrivals] s t

/-- The timers are written by ticks only, and a tick of timers at 0 changes nothing (60_exceptions.md R133). -/
def Obligations.TimersChangeByTicksOnly : Prop :=
  (∀ s t : State, step s = .next t → s.nextArrival ≠ .tick60 → t.dt = s.dt ∧ t.st = s.st) ∧
  (∀ s : State, s.run = .running → s.nextArrival = .tick60 → s.dt = 0 → s.st = 0 →
    step s = .next { s with arrivals := s.arrivals.tail })

/-- QUIT (60_exceptions.md R125): `RUN <- STOPPED`, `CAUSE <- 2`, `CAUSE_INFO <- 0`, nothing else; a `quit` after the end
of the run does nothing. -/
def Obligations.QuitStopsARunningMachine : Prop :=
  (∀ s : State, s.run = .running → s.nextArrival = .quit → ∃ t, step s = .next t ∧ t.run = .stopped ∧
    t.cause = 2 ∧ t.causeInfo = 0 ∧ t.arrivals = s.arrivals.tail ∧ Untouched [.status, .arrivals] s t) ∧
  (∀ s : State, s.run ≠ .running → s.nextArrival = .quit → step s = .next s)

/-- Taking an event (60_exceptions.md R120, R128; 10_state.md R28): the codes, the recorded value and the status of each
event; nothing but the three status registers is written, `PC` included. -/
def Obligations.TakingAnEvent : Prop :=
  ∀ s : State, (∀ e : Event, Untouched [.status] s (s.raise e)) ∧
    (∀ a, (s.raise (.endOfProgram a)).statusPort = (1, 1, a)) ∧ (s.raise .quit).statusPort = (1, 2, 0) ∧
    (∀ a, a ≤ 0xFFFF → ((s.raise (.memBounds a)).run = .faulted ∧ (s.raise (.memBounds a)).cause = 4 ∧
      (s.raise (.memBounds a)).causeInfo.toNat = a)) ∧
    (∀ a, (s.raise (.stackOverflow a)).statusPort = (2, 5, a)) ∧ (s.raise .stackUnderflow).statusPort = (2, 6, 0)

/-! ## Memory -/

/-- `MemRead` (20_memory.md R44): the byte inside the array, MEM_BOUNDS outside it, never a wrap. -/
def Obligations.MemReadAnswersByteOrBounds : Prop :=
  ∀ (s : State) (a : Nat), (a ≤ 4095 → s.memRead a = .ok (s.byteAt a)) ∧
    (4096 ≤ a → s.memRead a = .error (.memBounds a))

/-- `MemWrite` (20_memory.md R45): inside the array the byte is stored and nothing else changes, the canonical form
included; outside it MEM_BOUNDS. -/
def Obligations.MemWriteStoresOneByte : Prop :=
  ∀ (s : State) (a : Nat) (b : Byte),
    (a ≤ 4095 → ∃ t, s.memWrite a b = .ok t ∧ t.memRead a = .ok b ∧ (∀ c, c ≠ a → t.byteAt c = s.byteAt c) ∧
      t.glyphTable = s.glyphTable ∧ Untouched [.mem] s t ∧
      (Memory.wf s.glyphTable s.mem → Memory.wf t.glyphTable t.mem)) ∧
    (4096 ≤ a → s.memWrite a b = .error (.memBounds a))

/-- A store is seen by the very next fetch (20_memory.md R51): storing a word's bytes at `PC` makes it the word
fetched. -/
def Obligations.StoreIsSeenByTheNextFetch : Prop :=
  ∀ (s : State) (hi lo : Byte), s.pc.toNat ≤ 4094 → ∃ t u w, s.memWrite s.pc.toNat hi = .ok t ∧
    t.memWrite (s.pc.toNat + 1) lo = .ok u ∧ u.fetch = .ok w ∧ w.toNat = hi.toNat * 256 + lo.toNat

/-- Two memories in canonical form that read the same everywhere are the same list of cells. -/
def Obligations.EqualMemoriesAreEqualData : Prop :=
  ∀ (g : GlyphTable) (m n : Memory), Memory.wf g m → Memory.wf g n →
    (∀ a, Memory.read g m a = Memory.read g n a) → m = n

/-! ## Reset and launch -/

/-- The launch state, for every glyph table and every ROM of at most 3584 bytes (10_state.md R29): every piece of state
has the value the spec lists. -/
def Obligations.LaunchStateAsListed : Prop :=
  ∀ (g : GlyphTable) (rom : List Byte), rom.length ≤ 3584 → ∃ s, launch g rom = some s ∧
    (∀ r, s.readV r = 0) ∧ s.i = 0 ∧ s.pc = 0x200 ∧ (∀ k : Fin 64, s.stack[k] = 0) ∧ s.sp = 0 ∧ s.dt = 0 ∧
    s.st = 0 ∧ (∀ x y, s.fbRead x y = false) ∧
    (∀ k : Fin 80, s.byteAt (0x050 + k.val) = g[k]) ∧
    (∀ (k : Nat) (h : k < rom.length), s.byteAt (0x200 + k) = rom[k]) ∧
    (∀ a, (a < 0x050 ∨ 0x0A0 ≤ a) → (a < 0x200 ∨ 0x200 + rom.length ≤ a) → s.byteAt a = 0) ∧
    s.run = .running ∧ s.cause = 0 ∧ s.causeInfo = 0 ∧ s.history = []

/-- A ROM longer than 3584 bytes gives no launch (70_reset_and_hazards.md R142), and a shorter one does. -/
def Obligations.OversizedRomGivesNoLaunch : Prop :=
  ∀ (g : GlyphTable) (rom : List Byte), launch g rom = none ↔ 3584 < rom.length

/-- The model's reset state is the launch with the empty ROM and the conventional glyph table: the MODEL's choice of the
two open launch parameters (log 3, log 10). -/
def Obligations.ResetIsTheEmptyLaunch : Prop := launch defaultGlyphTable [] = some State.reset

/-- `load_glyphs()` puts the table at 0x050 and is idempotent (70_reset_and_hazards.md R141). -/
def Obligations.LoadGlyphsIsIdempotent : Prop :=
  ∀ s : State, ∃ t, loadGlyphs s = .ok t ∧ (∀ k : Fin 80, t.byteAt (0x050 + k.val) = s.glyphTable[k]) ∧
    (∀ a, (a < 0x050 ∨ 0x0A0 ≤ a) → t.byteAt a = s.byteAt a) ∧ loadGlyphs t = .ok t

/-! ## The call stack and the framebuffer port -/

/-- `StackPush` (43_call_stack.md R110): the value goes to `STACK[SP]`, then `SP` is one larger; a full stack raises
STACK_OVERFLOW with the value and writes nothing else. -/
def Obligations.PushWritesTheLowestFreeSlot : Prop :=
  ∀ (s : State) (a : Word),
    (s.sp.val < 64 → ∃ t, s.stackPush a = .ok t ∧ s.pushStep a = t ∧ t.sp.val = s.sp.val + 1 ∧
      (∀ k : Fin 64, t.stack[k] = if k.val = s.sp.val then a else s.stack[k]) ∧ Untouched [.stack] s t) ∧
    (s.sp.val = 64 → s.stackPush a = .error (.stackOverflow a) ∧
      s.pushStep a = { s with run := .faulted, cause := 5, causeInfo := a })

/-- `StackPop` (43_call_stack.md R111): `SP` is one smaller and `STACK[SP]` is returned, every slot kept; an empty stack
raises STACK_UNDERFLOW and changes nothing else. -/
def Obligations.PopReturnsTheNewestEntry : Prop :=
  ∀ s : State,
    (∀ k : Fin 64, s.sp.val = k.val + 1 → ∃ t, s.stackPop = .ok (s.stack[k], t) ∧
      s.popStep = (some s.stack[k], t) ∧ t.sp.val = k.val ∧ t.stack = s.stack ∧ Untouched [.stack] s t) ∧
    (s.sp.val = 0 → s.stackPop = .error .stackUnderflow ∧
      s.popStep = (none, { s with run := .faulted, cause := 6, causeInfo := 0 }))

/-- Any sequence of pushes and pops behaves as on a list of capacity 64: the same values popped, last in first out, the
same entries left, the same event raised (43_call_stack.md R112). -/
def Obligations.CallStackRefinesAList : Prop :=
  ∀ (ops : List StackOp) (s : State),
    (runStack ops s).map (fun p => (p.1, p.2.stackList)) = runList ops s.stackList

/-- The framebuffer port (10_state.md R34): a cell reads as last written, every other cell and everything else is
unchanged; `FbClear` turns every cell off. -/
def Obligations.FramebufferPort : Prop :=
  ∀ s : State, ((∀ x y, s.fbClear.fbRead x y = false) ∧ Untouched [.fb] s s.fbClear) ∧
    ∀ x y b, (s.fbWrite x y b).fbRead x y = b ∧
      (∀ z w, (z, w) ≠ (x, y) → (s.fbWrite x y b).fbRead z w = s.fbRead z w) ∧ Untouched [.fb] s (s.fbWrite x y b)
end

