-- ==== Sys2Proof/Laws/State.lean ====
section
/-! SUPPORT. One lemma per field per named update of the state, true by rfl, so that no proof unfolds a record update. -/

namespace Sys2Proof.Machine

variable (s : State)

/-! ## `setPc` -/

@[simp] theorem setPc_v (w : Word) : (s.setPc w).v = s.v := rfl
@[simp] theorem setPc_i (w : Word) : (s.setPc w).i = s.i := rfl
@[simp] theorem setPc_pc (w : Word) : (s.setPc w).pc = w := rfl
@[simp] theorem setPc_stack (w : Word) : (s.setPc w).stack = s.stack := rfl
@[simp] theorem setPc_sp (w : Word) : (s.setPc w).sp = s.sp := rfl
@[simp] theorem setPc_dt (w : Word) : (s.setPc w).dt = s.dt := rfl
@[simp] theorem setPc_st (w : Word) : (s.setPc w).st = s.st := rfl
@[simp] theorem setPc_fb (w : Word) : (s.setPc w).fb = s.fb := rfl
@[simp] theorem setPc_mem (w : Word) : (s.setPc w).mem = s.mem := rfl
@[simp] theorem setPc_run (w : Word) : (s.setPc w).run = s.run := rfl
@[simp] theorem setPc_cause (w : Word) : (s.setPc w).cause = s.cause := rfl
@[simp] theorem setPc_causeInfo (w : Word) : (s.setPc w).causeInfo = s.causeInfo := rfl
@[simp] theorem setPc_history (w : Word) : (s.setPc w).history = s.history := rfl
@[simp] theorem setPc_glyphTable (w : Word) : (s.setPc w).glyphTable = s.glyphTable := rfl
@[simp] theorem setPc_arrivals (w : Word) : (s.setPc w).arrivals = s.arrivals := rfl

/-! ## `setI` -/

@[simp] theorem setI_v (w : Word) : (s.setI w).v = s.v := rfl
@[simp] theorem setI_i (w : Word) : (s.setI w).i = w := rfl
@[simp] theorem setI_pc (w : Word) : (s.setI w).pc = s.pc := rfl
@[simp] theorem setI_stack (w : Word) : (s.setI w).stack = s.stack := rfl
@[simp] theorem setI_sp (w : Word) : (s.setI w).sp = s.sp := rfl
@[simp] theorem setI_dt (w : Word) : (s.setI w).dt = s.dt := rfl
@[simp] theorem setI_st (w : Word) : (s.setI w).st = s.st := rfl
@[simp] theorem setI_fb (w : Word) : (s.setI w).fb = s.fb := rfl
@[simp] theorem setI_mem (w : Word) : (s.setI w).mem = s.mem := rfl
@[simp] theorem setI_run (w : Word) : (s.setI w).run = s.run := rfl
@[simp] theorem setI_cause (w : Word) : (s.setI w).cause = s.cause := rfl
@[simp] theorem setI_causeInfo (w : Word) : (s.setI w).causeInfo = s.causeInfo := rfl
@[simp] theorem setI_history (w : Word) : (s.setI w).history = s.history := rfl
@[simp] theorem setI_glyphTable (w : Word) : (s.setI w).glyphTable = s.glyphTable := rfl
@[simp] theorem setI_arrivals (w : Word) : (s.setI w).arrivals = s.arrivals := rfl

/-! ## `setV` -/

@[simp] theorem setV_v (r : Vector Byte 16) : (s.setV r).v = r := rfl
@[simp] theorem setV_i (r : Vector Byte 16) : (s.setV r).i = s.i := rfl
@[simp] theorem setV_pc (r : Vector Byte 16) : (s.setV r).pc = s.pc := rfl
@[simp] theorem setV_stack (r : Vector Byte 16) : (s.setV r).stack = s.stack := rfl
@[simp] theorem setV_sp (r : Vector Byte 16) : (s.setV r).sp = s.sp := rfl
@[simp] theorem setV_dt (r : Vector Byte 16) : (s.setV r).dt = s.dt := rfl
@[simp] theorem setV_st (r : Vector Byte 16) : (s.setV r).st = s.st := rfl
@[simp] theorem setV_fb (r : Vector Byte 16) : (s.setV r).fb = s.fb := rfl
@[simp] theorem setV_mem (r : Vector Byte 16) : (s.setV r).mem = s.mem := rfl
@[simp] theorem setV_run (r : Vector Byte 16) : (s.setV r).run = s.run := rfl
@[simp] theorem setV_cause (r : Vector Byte 16) : (s.setV r).cause = s.cause := rfl
@[simp] theorem setV_causeInfo (r : Vector Byte 16) : (s.setV r).causeInfo = s.causeInfo := rfl
@[simp] theorem setV_history (r : Vector Byte 16) : (s.setV r).history = s.history := rfl
@[simp] theorem setV_glyphTable (r : Vector Byte 16) : (s.setV r).glyphTable = s.glyphTable := rfl
@[simp] theorem setV_arrivals (r : Vector Byte 16) : (s.setV r).arrivals = s.arrivals := rfl

/-! ## `setFb` -/

@[simp] theorem setFb_v (f : Framebuffer) : (s.setFb f).v = s.v := rfl
@[simp] theorem setFb_i (f : Framebuffer) : (s.setFb f).i = s.i := rfl
@[simp] theorem setFb_pc (f : Framebuffer) : (s.setFb f).pc = s.pc := rfl
@[simp] theorem setFb_stack (f : Framebuffer) : (s.setFb f).stack = s.stack := rfl
@[simp] theorem setFb_sp (f : Framebuffer) : (s.setFb f).sp = s.sp := rfl
@[simp] theorem setFb_dt (f : Framebuffer) : (s.setFb f).dt = s.dt := rfl
@[simp] theorem setFb_st (f : Framebuffer) : (s.setFb f).st = s.st := rfl
@[simp] theorem setFb_fb (f : Framebuffer) : (s.setFb f).fb = f := rfl
@[simp] theorem setFb_mem (f : Framebuffer) : (s.setFb f).mem = s.mem := rfl
@[simp] theorem setFb_run (f : Framebuffer) : (s.setFb f).run = s.run := rfl
@[simp] theorem setFb_cause (f : Framebuffer) : (s.setFb f).cause = s.cause := rfl
@[simp] theorem setFb_causeInfo (f : Framebuffer) : (s.setFb f).causeInfo = s.causeInfo := rfl
@[simp] theorem setFb_history (f : Framebuffer) : (s.setFb f).history = s.history := rfl
@[simp] theorem setFb_glyphTable (f : Framebuffer) : (s.setFb f).glyphTable = s.glyphTable := rfl
@[simp] theorem setFb_arrivals (f : Framebuffer) : (s.setFb f).arrivals = s.arrivals := rfl

/-! ## `setMem` -/

@[simp] theorem setMem_v (m : Memory) : (s.setMem m).v = s.v := rfl
@[simp] theorem setMem_i (m : Memory) : (s.setMem m).i = s.i := rfl
@[simp] theorem setMem_pc (m : Memory) : (s.setMem m).pc = s.pc := rfl
@[simp] theorem setMem_stack (m : Memory) : (s.setMem m).stack = s.stack := rfl
@[simp] theorem setMem_sp (m : Memory) : (s.setMem m).sp = s.sp := rfl
@[simp] theorem setMem_dt (m : Memory) : (s.setMem m).dt = s.dt := rfl
@[simp] theorem setMem_st (m : Memory) : (s.setMem m).st = s.st := rfl
@[simp] theorem setMem_fb (m : Memory) : (s.setMem m).fb = s.fb := rfl
@[simp] theorem setMem_mem (m : Memory) : (s.setMem m).mem = m := rfl
@[simp] theorem setMem_run (m : Memory) : (s.setMem m).run = s.run := rfl
@[simp] theorem setMem_cause (m : Memory) : (s.setMem m).cause = s.cause := rfl
@[simp] theorem setMem_causeInfo (m : Memory) : (s.setMem m).causeInfo = s.causeInfo := rfl
@[simp] theorem setMem_history (m : Memory) : (s.setMem m).history = s.history := rfl
@[simp] theorem setMem_glyphTable (m : Memory) : (s.setMem m).glyphTable = s.glyphTable := rfl
@[simp] theorem setMem_arrivals (m : Memory) : (s.setMem m).arrivals = s.arrivals := rfl

/-! ## `setTimers` -/

@[simp] theorem setTimers_v (d t : Byte) : (s.setTimers d t).v = s.v := rfl
@[simp] theorem setTimers_i (d t : Byte) : (s.setTimers d t).i = s.i := rfl
@[simp] theorem setTimers_pc (d t : Byte) : (s.setTimers d t).pc = s.pc := rfl
@[simp] theorem setTimers_stack (d t : Byte) : (s.setTimers d t).stack = s.stack := rfl
@[simp] theorem setTimers_sp (d t : Byte) : (s.setTimers d t).sp = s.sp := rfl
@[simp] theorem setTimers_dt (d t : Byte) : (s.setTimers d t).dt = d := rfl
@[simp] theorem setTimers_st (d t : Byte) : (s.setTimers d t).st = t := rfl
@[simp] theorem setTimers_fb (d t : Byte) : (s.setTimers d t).fb = s.fb := rfl
@[simp] theorem setTimers_mem (d t : Byte) : (s.setTimers d t).mem = s.mem := rfl
@[simp] theorem setTimers_run (d t : Byte) : (s.setTimers d t).run = s.run := rfl
@[simp] theorem setTimers_cause (d t : Byte) : (s.setTimers d t).cause = s.cause := rfl
@[simp] theorem setTimers_causeInfo (d t : Byte) : (s.setTimers d t).causeInfo = s.causeInfo := rfl
@[simp] theorem setTimers_history (d t : Byte) : (s.setTimers d t).history = s.history := rfl
@[simp] theorem setTimers_glyphTable (d t : Byte) : (s.setTimers d t).glyphTable = s.glyphTable := rfl
@[simp] theorem setTimers_arrivals (d t : Byte) : (s.setTimers d t).arrivals = s.arrivals := rfl

/-! ## `setStack` -/

@[simp] theorem setStack_v (k : Vector Word 64) (d : Fin 65) : (s.setStack k d).v = s.v := rfl
@[simp] theorem setStack_i (k : Vector Word 64) (d : Fin 65) : (s.setStack k d).i = s.i := rfl
@[simp] theorem setStack_pc (k : Vector Word 64) (d : Fin 65) : (s.setStack k d).pc = s.pc := rfl
@[simp] theorem setStack_stack (k : Vector Word 64) (d : Fin 65) : (s.setStack k d).stack = k := rfl
@[simp] theorem setStack_sp (k : Vector Word 64) (d : Fin 65) : (s.setStack k d).sp = d := rfl
@[simp] theorem setStack_dt (k : Vector Word 64) (d : Fin 65) : (s.setStack k d).dt = s.dt := rfl
@[simp] theorem setStack_st (k : Vector Word 64) (d : Fin 65) : (s.setStack k d).st = s.st := rfl
@[simp] theorem setStack_fb (k : Vector Word 64) (d : Fin 65) : (s.setStack k d).fb = s.fb := rfl
@[simp] theorem setStack_mem (k : Vector Word 64) (d : Fin 65) : (s.setStack k d).mem = s.mem := rfl
@[simp] theorem setStack_run (k : Vector Word 64) (d : Fin 65) : (s.setStack k d).run = s.run := rfl
@[simp] theorem setStack_cause (k : Vector Word 64) (d : Fin 65) : (s.setStack k d).cause = s.cause := rfl
@[simp] theorem setStack_causeInfo (k : Vector Word 64) (d : Fin 65) : (s.setStack k d).causeInfo = s.causeInfo := rfl
@[simp] theorem setStack_history (k : Vector Word 64) (d : Fin 65) : (s.setStack k d).history = s.history := rfl
@[simp] theorem setStack_glyphTable (k : Vector Word 64) (d : Fin 65) : (s.setStack k d).glyphTable = s.glyphTable := rfl
@[simp] theorem setStack_arrivals (k : Vector Word 64) (d : Fin 65) : (s.setStack k d).arrivals = s.arrivals := rfl

/-! ## `setStatus` -/

@[simp] theorem setStatus_v (r : RunStatus) (c : BitVec 3) (n : Word) : (s.setStatus r c n).v = s.v := rfl
@[simp] theorem setStatus_i (r : RunStatus) (c : BitVec 3) (n : Word) : (s.setStatus r c n).i = s.i := rfl
@[simp] theorem setStatus_pc (r : RunStatus) (c : BitVec 3) (n : Word) : (s.setStatus r c n).pc = s.pc := rfl
@[simp] theorem setStatus_stack (r : RunStatus) (c : BitVec 3) (n : Word) : (s.setStatus r c n).stack = s.stack := rfl
@[simp] theorem setStatus_sp (r : RunStatus) (c : BitVec 3) (n : Word) : (s.setStatus r c n).sp = s.sp := rfl
@[simp] theorem setStatus_dt (r : RunStatus) (c : BitVec 3) (n : Word) : (s.setStatus r c n).dt = s.dt := rfl
@[simp] theorem setStatus_st (r : RunStatus) (c : BitVec 3) (n : Word) : (s.setStatus r c n).st = s.st := rfl
@[simp] theorem setStatus_fb (r : RunStatus) (c : BitVec 3) (n : Word) : (s.setStatus r c n).fb = s.fb := rfl
@[simp] theorem setStatus_mem (r : RunStatus) (c : BitVec 3) (n : Word) : (s.setStatus r c n).mem = s.mem := rfl
@[simp] theorem setStatus_run (r : RunStatus) (c : BitVec 3) (n : Word) : (s.setStatus r c n).run = r := rfl
@[simp] theorem setStatus_cause (r : RunStatus) (c : BitVec 3) (n : Word) : (s.setStatus r c n).cause = c := rfl
@[simp] theorem setStatus_causeInfo (r : RunStatus) (c : BitVec 3) (n : Word) : (s.setStatus r c n).causeInfo = n := rfl
@[simp] theorem setStatus_history (r : RunStatus) (c : BitVec 3) (n : Word) : (s.setStatus r c n).history = s.history := rfl
@[simp] theorem setStatus_glyphTable (r : RunStatus) (c : BitVec 3) (n : Word) : (s.setStatus r c n).glyphTable = s.glyphTable := rfl
@[simp] theorem setStatus_arrivals (r : RunStatus) (c : BitVec 3) (n : Word) : (s.setStatus r c n).arrivals = s.arrivals := rfl

/-! ## `emit` -/

@[simp] theorem emit_v (e : OutEvent) : (s.emit e).v = s.v := rfl
@[simp] theorem emit_i (e : OutEvent) : (s.emit e).i = s.i := rfl
@[simp] theorem emit_pc (e : OutEvent) : (s.emit e).pc = s.pc := rfl
@[simp] theorem emit_stack (e : OutEvent) : (s.emit e).stack = s.stack := rfl
@[simp] theorem emit_sp (e : OutEvent) : (s.emit e).sp = s.sp := rfl
@[simp] theorem emit_dt (e : OutEvent) : (s.emit e).dt = s.dt := rfl
@[simp] theorem emit_st (e : OutEvent) : (s.emit e).st = s.st := rfl
@[simp] theorem emit_fb (e : OutEvent) : (s.emit e).fb = s.fb := rfl
@[simp] theorem emit_mem (e : OutEvent) : (s.emit e).mem = s.mem := rfl
@[simp] theorem emit_run (e : OutEvent) : (s.emit e).run = s.run := rfl
@[simp] theorem emit_cause (e : OutEvent) : (s.emit e).cause = s.cause := rfl
@[simp] theorem emit_causeInfo (e : OutEvent) : (s.emit e).causeInfo = s.causeInfo := rfl
@[simp] theorem emit_history (e : OutEvent) : (s.emit e).history = s.history ++ [e] := rfl
@[simp] theorem emit_glyphTable (e : OutEvent) : (s.emit e).glyphTable = s.glyphTable := rfl
@[simp] theorem emit_arrivals (e : OutEvent) : (s.emit e).arrivals = s.arrivals := rfl

/-! ## `setArrivals` -/

@[simp] theorem setArrivals_v (l : List Arrival) : (s.setArrivals l).v = s.v := rfl
@[simp] theorem setArrivals_i (l : List Arrival) : (s.setArrivals l).i = s.i := rfl
@[simp] theorem setArrivals_pc (l : List Arrival) : (s.setArrivals l).pc = s.pc := rfl
@[simp] theorem setArrivals_stack (l : List Arrival) : (s.setArrivals l).stack = s.stack := rfl
@[simp] theorem setArrivals_sp (l : List Arrival) : (s.setArrivals l).sp = s.sp := rfl
@[simp] theorem setArrivals_dt (l : List Arrival) : (s.setArrivals l).dt = s.dt := rfl
@[simp] theorem setArrivals_st (l : List Arrival) : (s.setArrivals l).st = s.st := rfl
@[simp] theorem setArrivals_fb (l : List Arrival) : (s.setArrivals l).fb = s.fb := rfl
@[simp] theorem setArrivals_mem (l : List Arrival) : (s.setArrivals l).mem = s.mem := rfl
@[simp] theorem setArrivals_run (l : List Arrival) : (s.setArrivals l).run = s.run := rfl
@[simp] theorem setArrivals_cause (l : List Arrival) : (s.setArrivals l).cause = s.cause := rfl
@[simp] theorem setArrivals_causeInfo (l : List Arrival) : (s.setArrivals l).causeInfo = s.causeInfo := rfl
@[simp] theorem setArrivals_history (l : List Arrival) : (s.setArrivals l).history = s.history := rfl
@[simp] theorem setArrivals_glyphTable (l : List Arrival) : (s.setArrivals l).glyphTable = s.glyphTable := rfl
@[simp] theorem setArrivals_arrivals (l : List Arrival) : (s.setArrivals l).arrivals = l := rfl

/-! ## `raise` -/

@[simp] theorem raise_v (e : Event) : (s.raise e).v = s.v := rfl
@[simp] theorem raise_i (e : Event) : (s.raise e).i = s.i := rfl
@[simp] theorem raise_pc (e : Event) : (s.raise e).pc = s.pc := rfl
@[simp] theorem raise_stack (e : Event) : (s.raise e).stack = s.stack := rfl
@[simp] theorem raise_sp (e : Event) : (s.raise e).sp = s.sp := rfl
@[simp] theorem raise_dt (e : Event) : (s.raise e).dt = s.dt := rfl
@[simp] theorem raise_st (e : Event) : (s.raise e).st = s.st := rfl
@[simp] theorem raise_fb (e : Event) : (s.raise e).fb = s.fb := rfl
@[simp] theorem raise_mem (e : Event) : (s.raise e).mem = s.mem := rfl
@[simp] theorem raise_run (e : Event) : (s.raise e).run = e.status := rfl
@[simp] theorem raise_cause (e : Event) : (s.raise e).cause = e.code := rfl
@[simp] theorem raise_causeInfo (e : Event) : (s.raise e).causeInfo = e.info := rfl
@[simp] theorem raise_history (e : Event) : (s.raise e).history = s.history := rfl
@[simp] theorem raise_glyphTable (e : Event) : (s.raise e).glyphTable = s.glyphTable := rfl
@[simp] theorem raise_arrivals (e : Event) : (s.raise e).arrivals = s.arrivals := rfl

/-! ## `writeV` -/

@[simp] theorem writeV_v (r : RegName) (b : Byte) : (s.writeV r b).v = s.v.set r b := rfl
@[simp] theorem writeV_i (r : RegName) (b : Byte) : (s.writeV r b).i = s.i := rfl
@[simp] theorem writeV_pc (r : RegName) (b : Byte) : (s.writeV r b).pc = s.pc := rfl
@[simp] theorem writeV_stack (r : RegName) (b : Byte) : (s.writeV r b).stack = s.stack := rfl
@[simp] theorem writeV_sp (r : RegName) (b : Byte) : (s.writeV r b).sp = s.sp := rfl
@[simp] theorem writeV_dt (r : RegName) (b : Byte) : (s.writeV r b).dt = s.dt := rfl
@[simp] theorem writeV_st (r : RegName) (b : Byte) : (s.writeV r b).st = s.st := rfl
@[simp] theorem writeV_fb (r : RegName) (b : Byte) : (s.writeV r b).fb = s.fb := rfl
@[simp] theorem writeV_mem (r : RegName) (b : Byte) : (s.writeV r b).mem = s.mem := rfl
@[simp] theorem writeV_run (r : RegName) (b : Byte) : (s.writeV r b).run = s.run := rfl
@[simp] theorem writeV_cause (r : RegName) (b : Byte) : (s.writeV r b).cause = s.cause := rfl
@[simp] theorem writeV_causeInfo (r : RegName) (b : Byte) : (s.writeV r b).causeInfo = s.causeInfo := rfl
@[simp] theorem writeV_history (r : RegName) (b : Byte) : (s.writeV r b).history = s.history := rfl
@[simp] theorem writeV_glyphTable (r : RegName) (b : Byte) : (s.writeV r b).glyphTable = s.glyphTable := rfl
@[simp] theorem writeV_arrivals (r : RegName) (b : Byte) : (s.writeV r b).arrivals = s.arrivals := rfl

/-! ## `fbWrite` -/

@[simp] theorem fbWrite_v (x : Column) (y : Row) (b : Bool) : (s.fbWrite x y b).v = s.v := rfl
@[simp] theorem fbWrite_i (x : Column) (y : Row) (b : Bool) : (s.fbWrite x y b).i = s.i := rfl
@[simp] theorem fbWrite_pc (x : Column) (y : Row) (b : Bool) : (s.fbWrite x y b).pc = s.pc := rfl
@[simp] theorem fbWrite_stack (x : Column) (y : Row) (b : Bool) : (s.fbWrite x y b).stack = s.stack := rfl
@[simp] theorem fbWrite_sp (x : Column) (y : Row) (b : Bool) : (s.fbWrite x y b).sp = s.sp := rfl
@[simp] theorem fbWrite_dt (x : Column) (y : Row) (b : Bool) : (s.fbWrite x y b).dt = s.dt := rfl
@[simp] theorem fbWrite_st (x : Column) (y : Row) (b : Bool) : (s.fbWrite x y b).st = s.st := rfl
@[simp] theorem fbWrite_fb (x : Column) (y : Row) (b : Bool) : (s.fbWrite x y b).fb = s.fb.set y (setCell s.fb[y] x b) := rfl
@[simp] theorem fbWrite_mem (x : Column) (y : Row) (b : Bool) : (s.fbWrite x y b).mem = s.mem := rfl
@[simp] theorem fbWrite_run (x : Column) (y : Row) (b : Bool) : (s.fbWrite x y b).run = s.run := rfl
@[simp] theorem fbWrite_cause (x : Column) (y : Row) (b : Bool) : (s.fbWrite x y b).cause = s.cause := rfl
@[simp] theorem fbWrite_causeInfo (x : Column) (y : Row) (b : Bool) : (s.fbWrite x y b).causeInfo = s.causeInfo := rfl
@[simp] theorem fbWrite_history (x : Column) (y : Row) (b : Bool) : (s.fbWrite x y b).history = s.history := rfl
@[simp] theorem fbWrite_glyphTable (x : Column) (y : Row) (b : Bool) : (s.fbWrite x y b).glyphTable = s.glyphTable := rfl
@[simp] theorem fbWrite_arrivals (x : Column) (y : Row) (b : Bool) : (s.fbWrite x y b).arrivals = s.arrivals := rfl

/-! ## `storeByte` -/

@[simp] theorem storeByte_v (a : Nat) (b : Byte) : (s.storeByte a b).v = s.v := rfl
@[simp] theorem storeByte_i (a : Nat) (b : Byte) : (s.storeByte a b).i = s.i := rfl
@[simp] theorem storeByte_pc (a : Nat) (b : Byte) : (s.storeByte a b).pc = s.pc := rfl
@[simp] theorem storeByte_stack (a : Nat) (b : Byte) : (s.storeByte a b).stack = s.stack := rfl
@[simp] theorem storeByte_sp (a : Nat) (b : Byte) : (s.storeByte a b).sp = s.sp := rfl
@[simp] theorem storeByte_dt (a : Nat) (b : Byte) : (s.storeByte a b).dt = s.dt := rfl
@[simp] theorem storeByte_st (a : Nat) (b : Byte) : (s.storeByte a b).st = s.st := rfl
@[simp] theorem storeByte_fb (a : Nat) (b : Byte) : (s.storeByte a b).fb = s.fb := rfl
@[simp] theorem storeByte_mem (a : Nat) (b : Byte) : (s.storeByte a b).mem = Memory.write s.glyphTable s.mem a b := rfl
@[simp] theorem storeByte_run (a : Nat) (b : Byte) : (s.storeByte a b).run = s.run := rfl
@[simp] theorem storeByte_cause (a : Nat) (b : Byte) : (s.storeByte a b).cause = s.cause := rfl
@[simp] theorem storeByte_causeInfo (a : Nat) (b : Byte) : (s.storeByte a b).causeInfo = s.causeInfo := rfl
@[simp] theorem storeByte_history (a : Nat) (b : Byte) : (s.storeByte a b).history = s.history := rfl
@[simp] theorem storeByte_glyphTable (a : Nat) (b : Byte) : (s.storeByte a b).glyphTable = s.glyphTable := rfl
@[simp] theorem storeByte_arrivals (a : Nat) (b : Byte) : (s.storeByte a b).arrivals = s.arrivals := rfl

/-! ## `advancePc` -/

@[simp] theorem advancePc_v : (s.advancePc).v = s.v := rfl
@[simp] theorem advancePc_i : (s.advancePc).i = s.i := rfl
@[simp] theorem advancePc_pc : (s.advancePc).pc = s.pc + 2 := rfl
@[simp] theorem advancePc_stack : (s.advancePc).stack = s.stack := rfl
@[simp] theorem advancePc_sp : (s.advancePc).sp = s.sp := rfl
@[simp] theorem advancePc_dt : (s.advancePc).dt = s.dt := rfl
@[simp] theorem advancePc_st : (s.advancePc).st = s.st := rfl
@[simp] theorem advancePc_fb : (s.advancePc).fb = s.fb := rfl
@[simp] theorem advancePc_mem : (s.advancePc).mem = s.mem := rfl
@[simp] theorem advancePc_run : (s.advancePc).run = s.run := rfl
@[simp] theorem advancePc_cause : (s.advancePc).cause = s.cause := rfl
@[simp] theorem advancePc_causeInfo : (s.advancePc).causeInfo = s.causeInfo := rfl
@[simp] theorem advancePc_history : (s.advancePc).history = s.history := rfl
@[simp] theorem advancePc_glyphTable : (s.advancePc).glyphTable = s.glyphTable := rfl
@[simp] theorem advancePc_arrivals : (s.advancePc).arrivals = s.arrivals := rfl

/-! ## `takeArrival` -/

@[simp] theorem takeArrival_v : (s.takeArrival).v = s.v := rfl
@[simp] theorem takeArrival_i : (s.takeArrival).i = s.i := rfl
@[simp] theorem takeArrival_pc : (s.takeArrival).pc = s.pc := rfl
@[simp] theorem takeArrival_stack : (s.takeArrival).stack = s.stack := rfl
@[simp] theorem takeArrival_sp : (s.takeArrival).sp = s.sp := rfl
@[simp] theorem takeArrival_dt : (s.takeArrival).dt = s.dt := rfl
@[simp] theorem takeArrival_st : (s.takeArrival).st = s.st := rfl
@[simp] theorem takeArrival_fb : (s.takeArrival).fb = s.fb := rfl
@[simp] theorem takeArrival_mem : (s.takeArrival).mem = s.mem := rfl
@[simp] theorem takeArrival_run : (s.takeArrival).run = s.run := rfl
@[simp] theorem takeArrival_cause : (s.takeArrival).cause = s.cause := rfl
@[simp] theorem takeArrival_causeInfo : (s.takeArrival).causeInfo = s.causeInfo := rfl
@[simp] theorem takeArrival_history : (s.takeArrival).history = s.history := rfl
@[simp] theorem takeArrival_glyphTable : (s.takeArrival).glyphTable = s.glyphTable := rfl
@[simp] theorem takeArrival_arrivals : (s.takeArrival).arrivals = s.arrivals.tail := rfl

/-! ## `clearCollision` -/

@[simp] theorem clearCollision_v : (s.clearCollision).v = s.v.set vf 0 := rfl
@[simp] theorem clearCollision_i : (s.clearCollision).i = s.i := rfl
@[simp] theorem clearCollision_pc : (s.clearCollision).pc = s.pc := rfl
@[simp] theorem clearCollision_stack : (s.clearCollision).stack = s.stack := rfl
@[simp] theorem clearCollision_sp : (s.clearCollision).sp = s.sp := rfl
@[simp] theorem clearCollision_dt : (s.clearCollision).dt = s.dt := rfl
@[simp] theorem clearCollision_st : (s.clearCollision).st = s.st := rfl
@[simp] theorem clearCollision_fb : (s.clearCollision).fb = s.fb := rfl
@[simp] theorem clearCollision_mem : (s.clearCollision).mem = s.mem := rfl
@[simp] theorem clearCollision_run : (s.clearCollision).run = s.run := rfl
@[simp] theorem clearCollision_cause : (s.clearCollision).cause = s.cause := rfl
@[simp] theorem clearCollision_causeInfo : (s.clearCollision).causeInfo = s.causeInfo := rfl
@[simp] theorem clearCollision_history : (s.clearCollision).history = s.history := rfl
@[simp] theorem clearCollision_glyphTable : (s.clearCollision).glyphTable = s.glyphTable := rfl
@[simp] theorem clearCollision_arrivals : (s.clearCollision).arrivals = s.arrivals := rfl

end Sys2Proof.Machine
end

