-- ==== Sys2Proof/Laws/Agents.lean ====
section
/-! SUPPORT. What the timer countdown and the call-stack primitives do, said once. -/

namespace Sys2Proof.Machine

/-- A timer counts down to 0 and stays there. -/
theorem toNat_countDown (t : Byte) : (countDown t).toNat = t.toNat - 1 := by
  unfold countDown
  split
  next h => subst h; rfl
  next h => rw [BitVec.toNat_sub_of_le (by bv_omega)]; rfl

/-- Everything a push can do. -/
theorem stackPush_cases (a : Word) (s : State) :
    (s.sp.val = 64 ∧ s.stackPush a = .error (.stackOverflow a)) ∨
    ∃ h : s.sp.val < 64, s.stackPush a = .ok (s.setStack (s.stack.set s.sp.val a) ⟨s.sp.val + 1, by omega⟩) := by
  by_cases h : s.sp.val = 64
  · exact .inl ⟨h, by simp [State.stackPush, h]⟩
  · have := s.sp.isLt
    refine .inr ⟨by omega, ?_⟩
    unfold State.stackPush
    rw [dif_neg h]

/-- Everything a pop can do. -/
theorem stackPop_cases (s : State) :
    (s.sp.val = 0 ∧ s.stackPop = .error .stackUnderflow) ∨
    ∃ h : s.sp.val - 1 < 64, 0 < s.sp.val ∧
      s.stackPop = .ok (s.stack[s.sp.val - 1], s.setStack s.stack ⟨s.sp.val - 1, by omega⟩) := by
  by_cases h : s.sp.val = 0
  · exact .inl ⟨h, by simp [State.stackPop, h]⟩
  · have := s.sp.isLt
    refine .inr ⟨by omega, by omega, ?_⟩
    unfold State.stackPop
    rw [dif_neg h]

end Sys2Proof.Machine
end

