-- ==== Sys2Proof/Laws/Memory.lean ====
section
/-! SUPPORT. The laws of the memory list: a read after a write, and the canonical form, which every memory operation
keeps. -/

namespace Sys2Proof.Machine.Memory

variable (g : GlyphTable) (m : Memory) (a c : Nat) (b : Byte)

theorem lookup_put : lookup (put m a b) c = if a = c then some b else lookup m c := by
  induction m with
  | nil => simp [put, lookup]
  | cons p m ih =>
    obtain ⟨k, d⟩ := p
    simp only [put]
    split
    · simp [lookup]
    · split
      · subst_vars; simp only [lookup]; split <;> rfl
      · simp only [lookup, ih]
        split
        · split
          · omega
          · rfl
        · rfl

theorem lookup_erase : lookup (erase m a) c = if a = c then none else lookup m c := by
  induction m with
  | nil => simp [erase, lookup]
  | cons p m ih =>
    obtain ⟨k, d⟩ := p
    simp only [erase]
    split
    · rw [ih]; subst_vars; simp only [lookup]; split <;> simp_all
    · simp only [lookup, ih]; split
      · split
        · omega
        · rfl
      · rfl

/-- A read after a write gives the value written at its address and the old byte at every other. -/
theorem read_write : read g (write g m a b) c = if a = c then b else read g m c := by
  unfold read write
  split
  · rw [lookup_erase]
    split
    · subst_vars; rfl
    · rfl
  · rw [lookup_put]
    split <;> rfl

theorem mem_of_mem_put {p : Host.Cell} (h : p ∈ put m a b) : p = (a, b) ∨ p ∈ m := by
  induction m with
  | nil => simpa [put] using h
  | cons q m ih =>
    obtain ⟨k, d⟩ := q
    simp only [put] at h
    split at h
    · simpa using h
    · split at h
      · rcases List.mem_cons.1 h with h | h
        · exact .inl h
        · exact .inr (List.mem_cons_of_mem _ h)
      · rcases List.mem_cons.1 h with h | h
        · exact .inr (by simp [h])
        · exact (ih h).imp_right (List.mem_cons_of_mem _)

theorem mem_of_mem_erase {p : Host.Cell} (h : p ∈ erase m a) : p ∈ m := by
  induction m with
  | nil => simp [erase] at h
  | cons q m ih =>
    obtain ⟨k, d⟩ := q
    simp only [erase] at h
    split at h
    · exact List.mem_cons_of_mem _ (ih h)
    · rcases List.mem_cons.1 h with h | h
      · simp [h]
      · exact List.mem_cons_of_mem _ (ih h)

theorem rising_put (h : m.Pairwise (fun c d => c.1 < d.1)) : (put m a b).Pairwise (fun c d => c.1 < d.1) := by
  induction m with
  | nil => simp [put]
  | cons q m ih =>
    obtain ⟨k, d⟩ := q
    obtain ⟨hk, hm⟩ := List.pairwise_cons.1 h
    simp only [put]
    split
    next hlt =>
      refine List.pairwise_cons.2 ⟨fun p hp => ?_, h⟩
      rcases List.mem_cons.1 hp with rfl | hp
      · exact hlt
      · exact Nat.lt_trans hlt (hk p hp)
    next hnlt =>
      split
      next heq => subst heq; exact List.pairwise_cons.2 ⟨hk, hm⟩
      next hne =>
        refine List.pairwise_cons.2 ⟨fun p hp => ?_, ih hm⟩
        rcases mem_of_mem_put _ _ _ hp with rfl | hp
        · simp only; omega
        · exact hk p hp

theorem rising_erase (h : m.Pairwise (fun c d => c.1 < d.1)) : (erase m a).Pairwise (fun c d => c.1 < d.1) := by
  induction m with
  | nil => simp [erase]
  | cons q m ih =>
    obtain ⟨k, d⟩ := q
    obtain ⟨hk, hm⟩ := List.pairwise_cons.1 h
    simp only [erase]
    split
    · exact ih hm
    · exact List.pairwise_cons.2 ⟨fun p hp => hk p (mem_of_mem_erase _ _ hp), ih hm⟩

/-- A write inside the array keeps the canonical form. -/
theorem write_wf (ha : a < Config.memSize) (h : wf g m) : wf g (write g m a b) := by
  unfold write
  split
  · exact ⟨rising_erase m a h.1, fun c hc => h.2 c (mem_of_mem_erase _ _ hc)⟩
  next hb =>
    refine ⟨rising_put m a b h.1, fun c hc => ?_⟩
    rcases mem_of_mem_put _ _ _ hc with rfl | hc
    · exact ⟨ha, hb⟩
    · exact h.2 c hc

/-- The empty list of cells is in canonical form. -/
theorem nil_wf : wf g [] := by simp [wf]

/-- In a rising list, an address below the first one is not listed. -/
theorem lookup_eq_none_of_lt (h : ∀ p ∈ m, a < p.1) : lookup m a = none := by
  induction m with
  | nil => rfl
  | cons q m ih =>
    obtain ⟨k, d⟩ := q
    have hk : a < k := h (k, d) (by simp)
    have : k ≠ a := by omega
    simp only [lookup, this, if_false]
    exact ih fun p hp => h p (List.mem_cons_of_mem _ hp)

/-- A listed cell is what its address reads as. -/
theorem lookup_of_mem (h : m.Pairwise (fun c d => c.1 < d.1)) (hm : (a, b) ∈ m) : lookup m a = some b := by
  induction m with
  | nil => simp at hm
  | cons q m ih =>
    obtain ⟨k, d⟩ := q
    obtain ⟨hk, hr⟩ := List.pairwise_cons.1 h
    rcases List.mem_cons.1 hm with he | hm
    · cases he; simp [lookup]
    · have : k ≠ a := Nat.ne_of_lt (hk _ hm)
      simp only [lookup, this, if_false]
      exact ih hr hm

end Sys2Proof.Machine.Memory
end

