-- ==== Sys2Proof/Laws/Ops.lean ====
section
/-! SUPPORT. What each shared operation does, said once: the register file, the framebuffer port, the memory datapath,
the fetch. -/

namespace Sys2Proof.Machine

variable (s : State)

/-! ## The register file -/

theorem readV_writeV (r q : RegName) (b : Byte) :
    (s.writeV r b).readV q = if q = r then b else s.readV q := by
  simp only [State.readV, writeV_v, Fin.getElem_fin, Vector.getElem_set, Fin.ext_iff, eq_comm]

@[simp] theorem readV_writeV_same (r : RegName) (b : Byte) : (s.writeV r b).readV r = b := by
  simp [readV_writeV]

theorem readV_writeV_other {r q : RegName} (b : Byte) (h : q ≠ r) : (s.writeV r b).readV q = s.readV q := by
  simp [readV_writeV, h]

/-- Reading a register looks at the register file only. -/
theorem readV_congr {s t : State} (h : t.v = s.v) (r : RegName) : t.readV r = s.readV r := by
  simp [State.readV, h]

/-- The 8-bit addition is the wrapping addition of bit vectors. -/
theorem addBytes_eq (a b : Byte) : addBytes a b = a + b := by
  apply BitVec.eq_of_toNat_eq; simp [addBytes]

/-! ## The framebuffer port -/

/-- Reading a cell looks at the framebuffer only. -/
theorem fbRead_congr {s t : State} (h : t.fb = s.fb) (x : Column) (y : Row) : t.fbRead x y = s.fbRead x y := by
  simp [State.fbRead, h]

theorem getLsbD_setCell (r : BitVec 64) (x z : Column) (b : Bool) :
    (setCell r x b).getLsbD z.val = if z = x then b else r.getLsbD z.val := by
  have hz : z.val < 64 := z.isLt
  have hx : (z = x) ↔ (x.val = z.val) := ⟨fun h => by rw [h], fun h => Fin.ext h.symm⟩
  cases b <;>
    simp only [setCell, if_true, Bool.false_eq_true, if_false, BitVec.getLsbD_or, BitVec.getLsbD_and,
      BitVec.getLsbD_not, BitVec.getLsbD_twoPow, hx, hz, decide_true, Bool.true_and] <;>
    split <;> simp_all

/-- A cell reads as it was last written, and every other cell as before. -/
theorem fbRead_fbWrite (x z : Column) (y w : Row) (b : Bool) :
    (s.fbWrite x y b).fbRead z w = if z = x ∧ w = y then b else s.fbRead z w := by
  simp only [State.fbRead, fbWrite_fb, Fin.getElem_fin, Vector.getElem_set]
  by_cases hw : w = y
  · subst hw
    simp only [if_true, and_true]
    exact getLsbD_setCell _ _ _ _
  · have : ¬ y.val = w.val := fun h => hw (Fin.ext h.symm)
    simp only [this, if_false, hw, and_false]

/-- Writing a cell leaves the registers alone, and writing a register the cells. -/
@[simp] theorem readV_fbWrite (r : RegName) (x : Column) (y : Row) (b : Bool) :
    (s.fbWrite x y b).readV r = s.readV r := rfl

@[simp] theorem fbRead_writeV (r : RegName) (b : Byte) (x : Column) (y : Row) :
    (s.writeV r b).fbRead x y = s.fbRead x y := rfl

@[simp] theorem fbRead_fbClear (x : Column) (y : Row) : s.fbClear.fbRead x y = false := by
  simp [State.fbRead, State.fbClear, Framebuffer.clear]

/-! ## The memory datapath -/

/-- Reading a byte looks at the cells and the glyph table only. -/
theorem byteAt_congr {s t : State} (hm : t.mem = s.mem) (hg : t.glyphTable = s.glyphTable) (a : Nat) :
    t.byteAt a = s.byteAt a := by
  simp [State.byteAt, hm, hg]

theorem byteAt_storeByte (a c : Nat) (b : Byte) :
    (s.storeByte a b).byteAt c = if a = c then b else s.byteAt c := by
  simp [State.byteAt, Memory.read_write]

theorem memRead_ok {a : Nat} (h : a < 4096) : s.memRead a = .ok (s.byteAt a) := by
  simp [State.memRead, h]

theorem memRead_error {a : Nat} (h : 4096 ≤ a) : s.memRead a = .error (.memBounds a) := by
  simp [State.memRead, Nat.not_lt.2 h]

theorem memWrite_ok {a : Nat} (b : Byte) (h : a < 4096) : s.memWrite a b = .ok (s.storeByte a b) := by
  simp [State.memWrite, h]

theorem memWrite_error {a : Nat} (b : Byte) (h : 4096 ≤ a) : s.memWrite a b = .error (.memBounds a) := by
  simp [State.memWrite, Nat.not_lt.2 h]

/-- A store inside the array keeps the canonical form. -/
theorem storeByte_wf {a : Nat} (b : Byte) (ha : a < 4096) (h : Memory.wf s.glyphTable s.mem) :
    Memory.wf (s.storeByte a b).glyphTable (s.storeByte a b).mem :=
  Memory.write_wf _ _ _ _ ha h

/-- Everything `MemWrite` can do: store one byte inside the array, or raise MEM_BOUNDS. -/
theorem memWrite_cases {a : Nat} {b : Byte} {s' : State} (h : s.memWrite a b = .ok s') :
    a < 4096 ∧ s' = s.storeByte a b := by
  by_cases ha : a < 4096
  · rw [memWrite_ok s b ha] at h; exact ⟨ha, (Except.ok.inj h).symm⟩
  · rw [memWrite_error s b (Nat.not_lt.1 ha)] at h; cases h

/-! ## Fetch -/

/-- A fetch with both bytes in range reads the word at `PC`, high byte first. -/
theorem fetch_ok (h : s.pc.toNat + 1 < 4096) :
    s.fetch = .ok (wordOfBytes (s.byteAt s.pc.toNat) (s.byteAt (s.pc.toNat + 1))) := by
  simp only [State.fetch, Config.memSize, h, if_true]
  rw [memRead_ok s (by omega), memRead_ok s h]

/-- A fetch whose second byte lies past the array raises MEM_BOUNDS at that byte. -/
theorem fetch_error (h : 4096 ≤ s.pc.toNat + 1) : s.fetch = .error (.memBounds (s.pc.toNat + 1)) := by
  simp [State.fetch, Nat.not_lt.2 h]

/-- The value of a word of two bytes. -/
theorem toNat_wordOfBytes (hi lo : Byte) : (wordOfBytes hi lo).toNat = hi.toNat * 256 + lo.toNat := by
  have := lo.isLt
  simp only [wordOfBytes, BitVec.toNat_append]
  rw [← Nat.shiftLeft_add_eq_or_of_lt (by simpa using lo.isLt), Nat.shiftLeft_eq]

end Sys2Proof.Machine
end

