-- ==== Sys2Proof/Laws/Display.lean ====
section
/-! SUPPORT. What drawing does: a set of cells toggled and VF set where one of them was on (`Painted`), shown of one
pixel, of one row and of any number of rows, and what the row loop of DRAW answers. -/

namespace Sys2Proof.Machine

/-- From `s` to `t` the cells of `mask` are toggled, VF is set where one of them was on, and nothing else changes. -/
structure Painted (mask : Column → Row → Bool) (s t : State) : Prop where
  fb : ∀ x y, t.fbRead x y = xor (s.fbRead x y) (mask x y)
  flag : t.readV vf = if ∃ x y, s.fbRead x y = true ∧ mask x y = true then 1 else s.readV vf
  other : ∀ r, r ≠ vf → t.readV r = s.readV r
  rest : t = { s with v := t.v, fb := t.fb }

theorem Painted.refl (s : State) : Painted (fun _ _ => false) s s :=
  ⟨by simp, by simp, fun _ _ => rfl, rfl⟩

/-- Painting two disjoint sets of cells one after the other paints their union. -/
theorem Painted.trans {m n : Column → Row → Bool} {s t u : State} (h : Painted m s t) (k : Painted n t u)
    (hd : ∀ x y, m x y = true → n x y = false) : Painted (fun x y => m x y || n x y) s u := by
  refine ⟨fun x y => ?_, ?_, fun r hr => by rw [k.other r hr, h.other r hr], ?_⟩
  · rw [k.fb, h.fb]
    cases hm : m x y
    · simp
    · simp [hd x y hm]
  · have hn : ∀ x y, n x y = true → t.fbRead x y = s.fbRead x y := by
      intro x y hn
      have : m x y = false := by
        cases hm : m x y
        · rfl
        · rw [hd x y hm] at hn; cases hn
      simp [h.fb, this]
    rw [k.flag]
    by_cases h1 : ∃ x y, s.fbRead x y = true ∧ m x y = true
    · have h2 : ∃ x y, s.fbRead x y = true ∧ (m x y || n x y) = true := by
        obtain ⟨x, y, a, b⟩ := h1; exact ⟨x, y, a, by simp [b]⟩
      rw [if_pos h2, h.flag, if_pos h1]
      split <;> rfl
    · rw [h.flag, if_neg h1]
      by_cases h3 : ∃ x y, t.fbRead x y = true ∧ n x y = true
      · have h4 : ∃ x y, s.fbRead x y = true ∧ (m x y || n x y) = true := by
          obtain ⟨x, y, a, b⟩ := h3
          exact ⟨x, y, by rw [← hn x y b]; exact a, by simp [b]⟩
        rw [if_pos h3, if_pos h4]
      · have h4 : ¬ ∃ x y, s.fbRead x y = true ∧ (m x y || n x y) = true := by
          rintro ⟨x, y, a, b⟩
          rcases (Bool.or_eq_true_iff).1 b with b | b
          · exact h1 ⟨x, y, a, b⟩
          · exact h3 ⟨x, y, by rw [hn x y b]; exact a, b⟩
        rw [if_neg h3, if_neg h4]
  · rw [k.rest, h.rest]

theorem Painted.congr {m n : Column → Row → Bool} {s t : State} (h : Painted m s t) (e : ∀ x y, m x y = n x y) :
    Painted n s t := by
  have : m = n := funext fun x => funext fun y => e x y
  exact this ▸ h

/-- Painting leaves memory and the index register alone. -/
theorem Painted.byteAt {m : Column → Row → Bool} {s t : State} (h : Painted m s t) (a : Nat) :
    t.byteAt a = s.byteAt a := by rw [h.rest]; rfl

theorem Painted.index {m : Column → Row → Bool} {s t : State} (h : Painted m s t) : t.i = s.i := by rw [h.rest]

/-! ## One cell, one pixel, one row -/

theorem toggleCell_painted (x : Column) (y : Row) (s : State) :
    Painted (fun z w => z == x && w == y) s (s.toggleCell x y) := by
  have hfb : ∀ z w, (s.noteCollision (s.fbRead x y)).fbRead z w = s.fbRead z w := by
    intro z w; unfold State.noteCollision; split <;> rfl
  have hex : (∃ z w, s.fbRead z w = true ∧ (z == x && w == y) = true) ↔ s.fbRead x y = true := by
    constructor
    · rintro ⟨z, w, a, b⟩
      simp only [Bool.and_eq_true, beq_iff_eq] at b
      rw [← b.1, ← b.2]; exact a
    · intro a; exact ⟨x, y, a, by simp⟩
  refine ⟨fun z w => ?_, ?_, fun r hr => ?_, ?_⟩
  · rw [State.toggleCell, fbRead_fbWrite, hfb]
    by_cases h : z = x ∧ w = y
    · obtain ⟨rfl, rfl⟩ := h; simp
    · rw [if_neg h]
      have : (z == x && w == y) = false := by simpa using h
      simp [this]
  · rw [State.toggleCell, readV_fbWrite, State.noteCollision]
    by_cases hr : s.fbRead x y = true
    · rw [if_pos hr, if_pos (hex.2 hr)]; simp
    · rw [if_neg hr, if_neg (fun h => hr (hex.1 h))]
  · rw [State.toggleCell, readV_fbWrite, State.noteCollision]
    split
    · exact readV_writeV_other s 1 hr
    · rfl
  · unfold State.toggleCell State.noteCollision
    split <;> rfl

theorem drawPixel_painted (x : Column) (y : Row) (b : Byte) (s : State) (col : Nat) :
    Painted (fun z w => spritePixel b col && (z == wrapColumn x col) && (w == y)) s (s.drawPixel x y b col) := by
  unfold State.drawPixel
  cases h : spritePixel b col
  · exact (Painted.refl s).congr (by simp)
  · exact (toggleCell_painted _ _ s).congr (by simp)

/-- The cells of the first `n` pixels of a sprite row. -/
def rowMask (x : Column) (y : Row) (b : Byte) (n : Nat) (z : Column) (w : Row) : Bool :=
  (List.range n).any fun col => spritePixel b col && (z == wrapColumn x col) && (w == y)

theorem foldl_drawPixel_painted (x : Column) (y : Row) (b : Byte) (s : State) (n : Nat) (hn : n ≤ 8) :
    Painted (rowMask x y b n) s ((List.range n).foldl (State.drawPixel x y b) s) := by
  induction n with
  | zero => exact (Painted.refl s).congr (by simp [rowMask])
  | succ n ih =>
    rw [List.range_succ, List.foldl_append]
    refine ((ih (by omega)).trans (drawPixel_painted x y b _ n) ?_).congr ?_
    · intro z w h
      simp only [rowMask, List.any_eq_true, List.mem_range, Bool.and_eq_true, beq_iff_eq] at h
      obtain ⟨col, hc, ⟨-, rfl⟩, rfl⟩ := h
      have : wrapColumn x col ≠ wrapColumn x n := by
        intro he
        have := congrArg Fin.val he
        simp only [wrapColumn, Fin.ofNat] at this
        omega
      simp [this]
    · intro z w
      simp [rowMask, List.range_succ, List.any_append]

/-- What drawing one sprite row does. -/
theorem drawRow_painted (x : Column) (y : Row) (b : Byte) (s : State) :
    Painted (rowMask x y b 8) s (s.drawRow x y b) :=
  foldl_drawPixel_painted x y b s 8 (by omega)

/-! ## Any number of rows -/

/-- `n` sprite rows from row `row`, drawn with no range check. -/
def State.paintRows (x0 : Column) (y0 : Row) : (row n : Nat) → State → State
  | _, 0, s => s
  | row, n + 1, s =>
    State.paintRows x0 y0 (row + 1) n (s.drawRow x0 (wrapRow y0 row) (s.byteAt (spriteAddress s row)))

/-- The cells of `n` sprite rows from row `row`. -/
def rowsMask (s : State) (x0 : Column) (y0 : Row) (row n : Nat) (z : Column) (w : Row) : Bool :=
  (List.range n).any fun k => rowMask x0 (wrapRow y0 (row + k)) (s.byteAt (spriteAddress s (row + k))) 8 z w

theorem rowsMask_congr {s t : State} (hb : ∀ a, t.byteAt a = s.byteAt a) (hi : t.i = s.i) (x0 : Column) (y0 : Row)
    (row n : Nat) (z : Column) (w : Row) : rowsMask t x0 y0 row n z w = rowsMask s x0 y0 row n z w := by
  simp only [rowsMask, spriteAddress, hb, hi]

theorem rowsMask_succ (s : State) (x0 : Column) (y0 : Row) (row n : Nat) (z : Column) (w : Row) :
    rowsMask s x0 y0 row (n + 1) z w =
      (rowMask x0 (wrapRow y0 row) (s.byteAt (spriteAddress s row)) 8 z w || rowsMask s x0 y0 (row + 1) n z w) := by
  simp only [rowsMask, List.range_succ_eq_map, List.any_cons, List.any_map, Nat.add_zero]
  congr 2
  funext k
  simp only [Function.comp, Nat.succ_eq_add_one, Nat.add_assoc, Nat.add_comm 1 k]

/-- What drawing any number of rows below 32 does. -/
theorem paintRows_painted (x0 : Column) (y0 : Row) (n : Nat) : ∀ (row : Nat) (s : State), row + n ≤ 31 →
    Painted (rowsMask s x0 y0 row n) s (State.paintRows x0 y0 row n s) := by
  induction n with
  | zero => intro row s _; exact (Painted.refl s).congr (by simp [rowsMask])
  | succ n ih =>
    intro row s h
    have h1 := drawRow_painted x0 (wrapRow y0 row) (s.byteAt (spriteAddress s row)) s
    have h2 := ih (row + 1) _ (by omega) |>.congr (rowsMask_congr h1.byteAt h1.index x0 y0 (row + 1) n)
    refine (h1.trans h2 ?_).congr fun z w => (rowsMask_succ s x0 y0 row n z w).symm
    intro z w hm
    simp only [rowMask, List.any_eq_true, Bool.and_eq_true, beq_iff_eq] at hm
    obtain ⟨c, -, -, rfl⟩ := hm
    simp only [rowsMask, rowMask, List.any_eq_false, List.mem_range]
    intro k hk
    have hne : wrapRow y0 row ≠ wrapRow y0 (row + 1 + k) := by
      intro he
      have := congrArg Fin.val he
      simp only [wrapRow, Fin.ofNat] at this
      omega
    simp [hne]

/-- Everything the row loop can do: all rows drawn and one `redraw`, where every row's byte lies inside the array; else
the rows inside it drawn, and MEM_BOUNDS at the first row past it. -/
theorem drawRows_eq (x0 : Column) (y0 : Row) (n : Nat) : ∀ (row : Nat) (s : State),
    State.drawRows x0 y0 row n s =
      if n = 0 ∨ s.i.toNat + row + n ≤ 4096 then (State.paintRows x0 y0 row n s).emit .redraw
      else (State.paintRows x0 y0 row (4096 - (s.i.toNat + row)) s).raise
        (.memBounds (max 4096 (s.i.toNat + row))) := by
  induction n with
  | zero => intro row s; simp [State.drawRows, State.paintRows]
  | succ n ih =>
    intro row s
    by_cases hr : s.i.toNat + row < 4096
    · have hd := drawRow_painted x0 (wrapRow y0 row) (s.byteAt (spriteAddress s row)) s
      simp only [State.drawRows, memRead_ok s (a := spriteAddress s row) hr, ih, hd.index]
      by_cases hn : s.i.toNat + row + (n + 1) ≤ 4096
      · rw [if_pos (.inr (by omega)), if_pos (.inr hn)]; rfl
      · rw [if_neg (by omega), if_neg (by omega)]
        obtain ⟨k, hk⟩ : ∃ k, 4096 - (s.i.toNat + row) = k + 1 := ⟨4096 - (s.i.toNat + row) - 1, by omega⟩
        rw [hk, show 4096 - (s.i.toNat + (row + 1)) = k by omega,
          show max 4096 (s.i.toNat + (row + 1)) = max 4096 (s.i.toNat + row) by omega]
        rfl
    · have hge : 4096 ≤ spriteAddress s row := by unfold spriteAddress; omega
      simp only [State.drawRows, memRead_error s hge]
      rw [if_neg (by omega), show 4096 - (s.i.toNat + row) = 0 by omega,
        show max 4096 (s.i.toNat + row) = spriteAddress s row by unfold spriteAddress; omega]
      rfl

end Sys2Proof.Machine
end

