-- ==== Sys2Proof/Laws/Encoding.lean ====
section
/-! SUPPORT. The fields of a word and the words of the encoder as arithmetic on natural numbers, so that proofs about
encodings are arithmetic. -/

namespace Sys2Proof

theorem toNat_append {m n : Nat} (a : BitVec m) (b : BitVec n) : (a ++ b).toNat = a.toNat * 2 ^ n + b.toNat := by
  rw [BitVec.toNat_append, ← Nat.shiftLeft_add_eq_or_of_lt b.isLt, Nat.shiftLeft_eq]

/-- Each field of a word, by its place in the word's value (30_encoding.md R61). -/
theorem toNat_fields (w : Word) :
    w.family.toNat = w.toNat / 4096 ∧ w.fieldX.val = w.toNat / 256 % 16 ∧ w.fieldY.val = w.toNat / 16 % 16 ∧
      w.fieldN.toNat = w.toNat % 16 ∧ w.fieldNN.toNat = w.toNat % 256 ∧ w.fieldNNN.toNat = w.toNat % 4096 := by
  have := w.isLt
  simp [Word.family, Word.fieldX, Word.fieldY, Word.fieldN, Word.fieldNN, Word.fieldNNN, BitVec.extractLsb'_toNat,
    Nat.shiftRight_eq_div_pow]
  omega

theorem family_eq_iff (w : Word) {k : Nat} (h : k < 16) : w.family = BitVec.ofNat 4 k ↔ w.toNat / 4096 = k := by
  rw [← (toNat_fields w).1]
  constructor
  · intro e; rw [e]; simp; omega
  · intro e; apply BitVec.eq_of_toNat_eq; rw [e]; simp; omega

/-- The value of an instruction's word (30_encoding.md R69). -/
theorem toNat_encodeWord (i : Instr) : (encodeWord i).toNat =
    match i with
    | .endOfProgram => 0
    | .cls => 0x00E0
    | .jump nnn => 0x1000 + nnn.toNat
    | .setr x nn => 0x6000 + x.val * 256 + nn.toNat
    | .addi x nn => 0x7000 + x.val * 256 + nn.toNat
    | .seti nnn => 0xA000 + nnn.toNat
    | .draw x y n => 0xD000 + x.val * 256 + y.val * 16 + n.toNat
    | .unknown w => w.toNat := by
  cases i with
  | endOfProgram => rfl
  | cls => rfl
  | jump nnn => simp only [encodeWord]; rw [toNat_append]; simp
  | setr x nn => simp only [encodeWord]; rw [toNat_append, toNat_append]; simp; omega
  | addi x nn => simp only [encodeWord]; rw [toNat_append, toNat_append]; simp; omega
  | seti nnn => simp only [encodeWord]; rw [toNat_append]; simp
  | draw x y n => simp only [encodeWord]; rw [toNat_append, toNat_append, toNat_append]; simp; omega
  | unknown w => rfl

/-- A word and the mask `0xF000`: the row is selected by the top nibble alone. -/
theorem and_topMask_eq_iff (w : Word) {k : Nat} (h : k < 16) :
    w &&& 0xF000#16 = BitVec.ofNat 16 (k * 4096) ↔ w.toNat / 4096 = k := by
  have key : (w &&& 0xF000#16).toNat = w.toNat / 4096 * 4096 := by
    have e : w &&& 0xF000#16 = (w >>> 12) <<< 12 := by
      apply BitVec.eq_of_getLsbD_eq
      intro i hi
      have hm : ∀ j : Fin 16, (0xF000#16).getLsbD j.val = decide (12 ≤ j.val) := by decide
      have := hm ⟨i, hi⟩
      by_cases h12 : 12 ≤ i <;> simp [this, h12]
      omega
    have := w.isLt
    rw [e]
    simp [Nat.shiftLeft_eq, Nat.shiftRight_eq_div_pow]
    omega
  have := w.isLt
  constructor
  · intro e
    have he := congrArg BitVec.toNat e
    rw [key] at he
    simp at he
    omega
  · intro e; apply BitVec.eq_of_toNat_eq; rw [key, e]; simp; omega

/-- The two bytes of a word make the word again (20_memory.md R42). -/
theorem wordOfBytes_of_bytes (w : Word) : wordOfBytes w.highByte w.lowByte = w := by
  apply BitVec.eq_of_toNat_eq
  have := w.isLt
  simp only [wordOfBytes]
  rw [toNat_append]
  simp [Word.highByte, Word.lowByte, BitVec.extractLsb'_toNat, Nat.shiftRight_eq_div_pow]
  omega

end Sys2Proof
end

