-- ==== Sys2Proof/Laws/Loader.lean ====
section
/-! SUPPORT. What the loader's writes do: a sequence of bytes at consecutive addresses, and the zeroed memory. -/

namespace Sys2Proof.Machine

/-- What loading a sequence of bytes inside the array does: the bytes are there, every other byte is as before, only
memory changes and it keeps its canonical form. -/
theorem loadBytes_ok (bs : List Byte) : ∀ (a : Nat) (s : State), a + bs.length ≤ 4096 →
    ∃ t, loadBytes a bs s = .ok t ∧ t = { s with mem := t.mem } ∧
      (∀ c, t.byteAt c = if h : a ≤ c ∧ c < a + bs.length then bs[c - a]'(by omega) else s.byteAt c) ∧
      (Memory.wf s.glyphTable s.mem → Memory.wf t.glyphTable t.mem) := by
  induction bs with
  | nil => intro a s _; exact ⟨s, rfl, rfl, fun c => by rw [dif_neg (by simp)], id⟩
  | cons b bs ih =>
    intro a s h
    simp only [List.length_cons] at h
    obtain ⟨t, e, r, hb, hw⟩ := ih (a + 1) (s.storeByte a b) (by omega)
    refine ⟨t, ?_, by rw [r]; rfl, fun c => ?_, fun w => hw (storeByte_wf s b (by omega) w)⟩
    · simp only [loadBytes, memWrite_ok s b (show a < 4096 by omega)]; exact e
    · rw [hb, byteAt_storeByte]
      by_cases h1 : a + 1 ≤ c ∧ c < a + 1 + bs.length
      · rw [dif_pos h1, dif_pos (by simp; omega)]
        obtain ⟨d, rfl⟩ : ∃ d, c = a + 1 + d := ⟨c - (a + 1), by omega⟩
        simp only [show a + 1 + d - (a + 1) = d by omega, show a + 1 + d - a = d + 1 by omega, List.getElem_cons_succ]
      · rw [dif_neg h1]
        by_cases h2 : a = c
        · subst h2; rw [if_pos rfl, dif_pos (by simp)]; simp
        · rw [if_neg h2, dif_neg (by simp; omega)]

/-- Loading past the array raises MEM_BOUNDS at the first address outside it. -/
theorem loadBytes_error (bs : List Byte) : ∀ (a : Nat) (s : State), a ≤ 4096 → 4096 < a + bs.length →
    loadBytes a bs s = .error (.memBounds 4096) := by
  induction bs with
  | nil => intro a s _ h; simp at h; omega
  | cons b bs ih =>
    intro a s ha h
    simp only [List.length_cons] at h
    by_cases h4 : a < 4096
    · simp only [loadBytes, memWrite_ok s b h4]; exact ih _ _ (by omega) (by omega)
    · have : a = 4096 := by omega
      subst this
      simp only [loadBytes, memWrite_error s b (Nat.le_refl 4096)]

/-- The glyph bytes are what the addresses of the glyph region read as when unlisted. -/
theorem unlisted_glyph (g : GlyphTable) (k : Nat) (h : k < 80) : Memory.unlisted g (0x050 + k) = g[k] := by
  unfold Memory.unlisted
  rw [dif_pos (by simp; omega)]
  simp

/-- The zeroed memory is in canonical form and reads 0 everywhere. -/
theorem zeroed_reads_zero (g : GlyphTable) :
    Memory.wf g (Memory.zeroed g) ∧ ∀ a, Memory.read g (Memory.zeroed g) a = 0 := by
  have key : ∀ n, n ≤ 80 →
      let m := (List.range n).foldl (fun m k => Memory.write g m (Config.glyphBase + k) 0) []
      Memory.wf g m ∧ ∀ a, Memory.read g m a = if 80 ≤ a ∧ a < 80 + n then 0 else Memory.unlisted g a := by
    intro n
    induction n with
    | zero => intro _; exact ⟨Memory.nil_wf g, fun a => by rw [if_neg (by omega)]; rfl⟩
    | succ n ih =>
      intro hn
      obtain ⟨h1, h2⟩ := ih (by omega)
      simp only [List.range_succ, List.foldl_append, List.foldl_cons, List.foldl_nil]
      refine ⟨Memory.write_wf _ _ _ _ (by simp; omega) h1, fun a => ?_⟩
      rw [Memory.read_write, h2]
      simp only [Config.glyphBase]
      by_cases h : 0x50 + n = a
      · rw [if_pos h, if_pos (by omega)]
      · rw [if_neg h]
        by_cases h' : 80 ≤ a ∧ a < 80 + n
        · rw [if_pos h', if_pos (by omega)]
        · rw [if_neg h', if_neg (by omega)]
  obtain ⟨h1, h2⟩ := key 80 (by omega)
  refine ⟨h1, fun a => (h2 a).trans ?_⟩
  split
  · rfl
  · unfold Memory.unlisted; rw [dif_neg (by simp; omega)]

end Sys2Proof.Machine
end

