-- ==== Sys2Proof/Laws/PerInstr.lean ====
section
/-! SUPPORT. Statements about every instruction as syntax, one lemma per constructor. -/

namespace Sys2Proof.Laws.EncodingFitsRow

/-- The word of a well-formed instruction is selected by the row of its mnemonic (30_encoding.md R64). -/
def Statement (i : Instr) : Prop :=
  i.wellFormed = true → ∃ r ∈ opcodeMap, r.mnemonic = i.mnemonic ∧ r.selects (encodeWord i) = true

/-- A word with the row's top nibble is selected by a row that fixes the top nibble only. -/
theorem selects_of_top (w : Word) (m : String) {k : Nat} (hk : k < 16) (h : w.toNat / 4096 = k) :
    OpcodeRow.selects ⟨m, 0xF000#16, BitVec.ofNat 16 (k * 4096)⟩ w = true := by
  simpa [OpcodeRow.selects] using (and_topMask_eq_iff w hk).2 h

theorem endOfProgram : Statement .endOfProgram := fun _ => ⟨⟨"END", 0xFFFF#16, 0x0000#16⟩, by decide, rfl, by decide⟩

theorem cls : Statement .cls := fun _ => ⟨⟨"CLS", 0xFFFF#16, 0x00E0#16⟩, by decide, rfl, by decide⟩

theorem jump (nnn : BitVec 12) : Statement (.jump nnn) := fun _ =>
  ⟨⟨"JUMP", 0xF000#16, 0x1000#16⟩, by decide, rfl, selects_of_top _ _ (k := 0x1) (by omega) (by
    rw [toNat_encodeWord]; have := nnn.isLt; simp only; omega)⟩

theorem setr (x : RegName) (nn : Byte) : Statement (.setr x nn) := fun _ =>
  ⟨⟨"SETR", 0xF000#16, 0x6000#16⟩, by decide, rfl, selects_of_top _ _ (k := 0x6) (by omega) (by
    rw [toNat_encodeWord]; have := nn.isLt; have := x.isLt; simp only; omega)⟩

theorem addi (x : RegName) (nn : Byte) : Statement (.addi x nn) := fun _ =>
  ⟨⟨"ADDI", 0xF000#16, 0x7000#16⟩, by decide, rfl, selects_of_top _ _ (k := 0x7) (by omega) (by
    rw [toNat_encodeWord]; have := nn.isLt; have := x.isLt; simp only; omega)⟩

theorem seti (nnn : BitVec 12) : Statement (.seti nnn) := fun _ =>
  ⟨⟨"SETI", 0xF000#16, 0xA000#16⟩, by decide, rfl, selects_of_top _ _ (k := 0xA) (by omega) (by
    rw [toNat_encodeWord]; have := nnn.isLt; simp only; omega)⟩

theorem draw (x y : RegName) (n : BitVec 4) : Statement (.draw x y n) := fun _ =>
  ⟨⟨"DRAW", 0xF000#16, 0xD000#16⟩, by decide, rfl, selects_of_top _ _ (k := 0xD) (by omega) (by
    rw [toNat_encodeWord]; have := n.isLt; have := x.isLt; have := y.isLt; simp only; omega)⟩

theorem unknown (w : Word) : Statement (.unknown w) := fun _ =>
  ⟨⟨"UNKNOWN", 0x0000#16, 0x0000#16⟩, by decide, rfl, by simp [OpcodeRow.selects]⟩

end Sys2Proof.Laws.EncodingFitsRow
end

