-- ==== Sys2Proof/Laws/Step.lean ====
section
/-! SUPPORT. What one step can do, said once: an equation for each of the six situations a step can find, and their
case split; and what DRAW answers. Later proofs cite these and do not unfold `step`. -/

namespace Sys2Proof.Machine

variable (s : State)

/-! ## DRAW -/

/-- What DRAW answers. -/
theorem execDraw_eq (x y : RegName) (n : BitVec 4) :
    exec (.draw x y n) s =
      let x0 := originColumn (s.readV x)
      let y0 := originRow (s.readV y)
      .next (if n.toNat = 0 ∨ s.i.toNat + n.toNat ≤ 4096
        then (State.paintRows x0 y0 0 n.toNat s.clearCollision).emit .redraw
        else (State.paintRows x0 y0 0 (4096 - s.i.toNat) s.clearCollision).raise
          (.memBounds (max 4096 s.i.toNat))) := by
  simp only [exec, execDraw, drawRows_eq, clearCollision_i, Nat.add_zero]
  rfl

/-- The abstract set of cells of 42_display.md R106 is the set the row loop toggles. -/
theorem rowsMask_eq_spriteMask (x y : RegName) (n : Nat) (z : Column) (w : Row) :
    rowsMask s.clearCollision (originColumn (s.readV x)) (originRow (s.readV y)) 0 n z w =
      spriteMask s ((s.readV x).toNat % 64) ((s.readV y).toNat % 32) n z w := by
  unfold rowsMask spriteMask rowMask spritePixel spriteAddress
  congr 1; funext k
  congr 1; funext c
  have hb : ∀ a, s.clearCollision.byteAt a = s.byteAt a := fun _ => rfl
  have hz : (z == wrapColumn (originColumn (s.readV x)) c) = (((s.readV x).toNat % 64 + c) % 64 == z.val) := by
    rw [Bool.eq_iff_iff]
    simp only [beq_iff_eq, Fin.ext_iff, wrapColumn, originColumn, Fin.ofNat]
    exact eq_comm
  have hw : (w == wrapRow (originRow (s.readV y)) k) = (((s.readV y).toNat % 32 + k) % 32 == w.val) := by
    rw [Bool.eq_iff_iff]
    simp only [beq_iff_eq, Fin.ext_iff, wrapRow, originRow, Fin.ofNat]
    exact eq_comm
  simp only [Nat.zero_add, hz, hw, hb, clearCollision_i]

/-- Drawing any number of rows below 32 leaves the registers and cells that R106 says. -/
theorem paintRows_drawn (x y : RegName) (n : Nat) (hn : n ≤ 31) :
    Drawn x y n s
      (State.paintRows (originColumn (s.readV x)) (originRow (s.readV y)) 0 n s.clearCollision) := by
  have h := (paintRows_painted (originColumn (s.readV x)) (originRow (s.readV y)) n 0 s.clearCollision
    (by omega)).congr (rowsMask_eq_spriteMask s x y n)
  have hf : ∀ cx cy, s.clearCollision.fbRead cx cy = s.fbRead cx cy := fun _ _ => rfl
  refine ⟨fun cx cy => by rw [h.fb, hf], ?_, fun r hr => ?_⟩
  · rw [h.flag]
    simp only [hf, show s.clearCollision.readV vf = 0 from readV_writeV_same s vf 0]
  · rw [h.other r hr]
    exact readV_writeV_other s 0 hr

/-- Drawing rows changes the registers and the framebuffer only. -/
theorem paintRows_rest (x0 : Column) (y0 : Row) (n : Nat) (hn : n ≤ 31) :
    State.paintRows x0 y0 0 n s.clearCollision =
      { s with v := (State.paintRows x0 y0 0 n s.clearCollision).v,
               fb := (State.paintRows x0 y0 0 n s.clearCollision).fb } := by
  have := (paintRows_painted x0 y0 n 0 s.clearCollision (by omega)).rest
  exact this

/-- DRAW where every row lies inside the array: the sprite is drawn, one `redraw` is emitted, nothing else changes. -/
theorem execDraw_inside (x y : RegName) (n : BitVec 4) (h : n.toNat = 0 ∨ s.i.toNat + n.toNat ≤ 4096) :
    ∃ t, exec (.draw x y n) s = .next t ∧ Drawn x y n.toNat s t ∧ t.history = s.history ++ [.redraw] ∧
      t = { s with v := t.v, fb := t.fb, history := t.history } := by
  have hn := n.isLt
  rw [execDraw_eq]
  refine ⟨_, rfl, ?_⟩
  rw [if_pos h]
  have hr := paintRows_rest s (originColumn (s.readV x)) (originRow (s.readV y)) n.toNat (by omega)
  refine ⟨paintRows_drawn s x y n.toNat (by omega), ?_, ?_⟩ <;> rw [hr] <;> rfl

/-- DRAW where a row lies past the array: the rows before it are drawn, MEM_BOUNDS is taken, nothing else changes. -/
theorem execDraw_outside (x y : RegName) (n : BitVec 4) (h1 : 1 ≤ n.toNat) (h2 : 4096 < s.i.toNat + n.toNat) :
    ∃ t, exec (.draw x y n) s = .next t ∧ t.run = .faulted ∧ t.cause = 4 ∧
      t.causeInfo = BitVec.ofNat 16 (max 4096 s.i.toNat) ∧ Drawn x y (4096 - s.i.toNat) s t ∧
      t = { s with v := t.v, fb := t.fb, run := t.run, cause := t.cause, causeInfo := t.causeInfo } := by
  have hn := n.isLt
  rw [execDraw_eq]
  refine ⟨_, rfl, ?_⟩
  rw [if_neg (by omega)]
  have hr := paintRows_rest s (originColumn (s.readV x)) (originRow (s.readV y)) (4096 - s.i.toNat) (by omega)
  refine ⟨rfl, rfl, rfl, paintRows_drawn s x y _ (by omega), ?_⟩
  rw [hr]; rfl

/-! ## What every instruction leaves alone -/

/-- Every instruction answers a next state, and leaves memory, the call stack, the timers and the events to come alone;
only JUMP writes `PC` and only SETI writes `I`. -/
theorem exec_answers (i : Instr) : ∃ t, exec i s = .next t ∧ t.mem = s.mem ∧ t.glyphTable = s.glyphTable ∧
    t.stack = s.stack ∧ t.sp = s.sp ∧ t.dt = s.dt ∧ t.st = s.st ∧ t.arrivals = s.arrivals ∧
    ((∀ nnn, i ≠ .jump nnn) → t.pc = s.pc) ∧ ((∀ nnn, i ≠ .seti nnn) → t.i = s.i) := by
  cases i with
  | draw x y n =>
    by_cases h : n.toNat = 0 ∨ s.i.toNat + n.toNat ≤ 4096
    · obtain ⟨t, e, -, -, r⟩ := execDraw_inside s x y n h
      exact ⟨t, e, by rw [r], by rw [r], by rw [r], by rw [r], by rw [r], by rw [r], by rw [r], fun _ => by rw [r],
        fun _ => by rw [r]⟩
    · obtain ⟨t, e, -, -, -, -, r⟩ := execDraw_outside s x y n (by omega) (by omega)
      exact ⟨t, e, by rw [r], by rw [r], by rw [r], by rw [r], by rw [r], by rw [r], by rw [r], fun _ => by rw [r],
        fun _ => by rw [r]⟩
  | jump nnn => exact ⟨_, rfl, rfl, rfl, rfl, rfl, rfl, rfl, rfl, fun h => absurd rfl (h nnn), fun _ => rfl⟩
  | seti nnn => exact ⟨_, rfl, rfl, rfl, rfl, rfl, rfl, rfl, rfl, fun _ => rfl, fun h => absurd rfl (h nnn)⟩
  | endOfProgram => exact ⟨_, rfl, rfl, rfl, rfl, rfl, rfl, rfl, rfl, fun _ => rfl, fun _ => rfl⟩
  | cls => exact ⟨_, rfl, rfl, rfl, rfl, rfl, rfl, rfl, rfl, fun _ => rfl, fun _ => rfl⟩
  | setr x nn => exact ⟨_, rfl, rfl, rfl, rfl, rfl, rfl, rfl, rfl, fun _ => rfl, fun _ => rfl⟩
  | addi x nn => exact ⟨_, rfl, rfl, rfl, rfl, rfl, rfl, rfl, rfl, fun _ => rfl, fun _ => rfl⟩
  | unknown w => exact ⟨_, rfl, rfl, rfl, rfl, rfl, rfl, rfl, rfl, fun _ => rfl, fun _ => rfl⟩

/-- Parts whose fields are equal are untouched. -/
theorem untouched_of_fields {l : List Part} {s t : State} (hv : Part.v ∉ l → t.v = s.v) (hi : Part.i ∉ l → t.i = s.i)
    (hpc : Part.pc ∉ l → t.pc = s.pc) (hstack : Part.stack ∉ l → t.stack = s.stack ∧ t.sp = s.sp)
    (htimers : Part.timers ∉ l → t.dt = s.dt ∧ t.st = s.st) (hfb : Part.fb ∉ l → t.fb = s.fb)
    (hmem : Part.mem ∉ l → t.mem = s.mem ∧ t.glyphTable = s.glyphTable)
    (hstatus : Part.status ∉ l → t.run = s.run ∧ t.cause = s.cause ∧ t.causeInfo = s.causeInfo)
    (hhistory : Part.history ∉ l → t.history = s.history) (harr : Part.arrivals ∉ l → t.arrivals = s.arrivals) :
    Untouched l s t :=
  ⟨fun h r => readV_congr (hv h) r, hi, hpc, hstack, htimers, fun h x y => fbRead_congr (hfb h) x y,
    fun h => ⟨(hmem h).2, fun a => byteAt_congr (hmem h).1 (hmem h).2 a⟩, hstatus, hhistory, harr⟩

/-! ## The six situations of a step -/

/-- The word a fetch of `s` reads. -/
def State.wordAtPc (s : State) : Word := wordOfBytes (s.byteAt s.pc.toNat) (s.byteAt (s.pc.toNat + 1))

theorem step_ended (h : s.run ≠ .running) : step s = .next s := by
  simp [step, agentStep, h]

theorem step_tick (h : s.run = .running) (ha : s.nextArrival = .tick60) :
    step s = .next (tickStep s.takeArrival) := by
  simp [step, agentStep, h, ha]

theorem step_quit (h : s.run = .running) (ha : s.nextArrival = .quit) :
    step s = .next (quitStep s.takeArrival) := by
  simp [step, agentStep, h, ha]

theorem step_halted (h : s.run = .running) (ha : s.nextArrival = .cycle) (hp : 4096 ≤ s.pc.toNat) :
    step s = .next s.takeArrival := by
  simp [step, agentStep, h, ha, cycleStep, hp]

theorem step_last (h : s.run = .running) (ha : s.nextArrival = .cycle) (hp : s.pc.toNat = 4095) :
    step s = .next (s.takeArrival.raise (.memBounds 4096)) := by
  have hf : s.takeArrival.fetch = .error (.memBounds 4096) := by
    rw [fetch_error _ (by simp [hp])]; simp [hp]
  have hlt : ¬ Config.memSize ≤ s.takeArrival.pc.toNat := by simp [hp]
  simp only [step, agentStep, h, ha, cycleStep, hf, hlt, if_true, if_false]

theorem step_fetch (h : s.run = .running) (ha : s.nextArrival = .cycle) (hp : s.pc.toNat ≤ 4094) :
    step s = exec (decodeWord s.wordAtPc) s.afterFetch := by
  have hf : s.takeArrival.fetch = .ok s.wordAtPc := by
    rw [fetch_ok _ (by simp; omega)]; rfl
  have hlt : ¬ Config.memSize ≤ s.takeArrival.pc.toNat := by simp; omega
  simp only [step, agentStep, h, ha, cycleStep, hf, hlt, if_true, if_false]
  rfl

/-- The situations of a step, each with what it answers. -/
theorem step_cases :
    (s.run ≠ .running ∧ step s = .next s) ∨
    (s.run = .running ∧ s.nextArrival = .tick60 ∧ step s = .next (tickStep s.takeArrival)) ∨
    (s.run = .running ∧ s.nextArrival = .quit ∧ step s = .next (quitStep s.takeArrival)) ∨
    (s.run = .running ∧ s.nextArrival = .cycle ∧ 4096 ≤ s.pc.toNat ∧ step s = .next s.takeArrival) ∨
    (s.run = .running ∧ s.nextArrival = .cycle ∧ s.pc.toNat = 4095 ∧
      step s = .next (s.takeArrival.raise (.memBounds 4096))) ∨
    (s.run = .running ∧ s.nextArrival = .cycle ∧ s.pc.toNat ≤ 4094 ∧
      step s = exec (decodeWord s.wordAtPc) s.afterFetch) := by
  by_cases h : s.run = .running
  · refine .inr ?_
    cases ha : s.nextArrival with
    | tick60 => exact .inl ⟨h, rfl, step_tick s h ha⟩
    | quit => exact .inr (.inl ⟨h, rfl, step_quit s h ha⟩)
    | cycle =>
      refine .inr (.inr ?_)
      rcases Nat.lt_or_ge s.pc.toNat 4096 with hp | hp
      · rcases Nat.lt_or_ge s.pc.toNat 4095 with hq | hq
        · exact .inr (.inr ⟨h, rfl, by omega, step_fetch s h ha (by omega)⟩)
        · exact .inr (.inl ⟨h, rfl, by omega, step_last s h ha (by omega)⟩)
      · exact .inl ⟨h, rfl, hp, step_halted s h ha hp⟩
  · exact .inl ⟨h, step_ended s h⟩

/-- A fetched word is the word at `PC`. -/
theorem Fetches.wordAtPc {s : State} {w : Word} (h : Fetches s w) : s.wordAtPc = w := by
  apply BitVec.eq_of_toNat_eq
  rw [State.wordAtPc, toNat_wordOfBytes, h.word]

end Sys2Proof.Machine
end

