-- ==== Sys2Proof/Laws/Run.lean ====
section
/-! SUPPORT. Runs of many steps, one step at a time, and what every step of every run keeps. -/

namespace Sys2Proof.Machine

@[simp] theorem run_zero (s : State) : Sys2Proof.core.run 0 s = .next s := rfl

/-- A run of `k + 1` steps whose first step answers `t` is the run of `k` steps from `t`. -/
theorem run_succ_of_step (k : Nat) {s t : State} (h : step s = .next t) :
    Sys2Proof.core.run (k + 1) s = Sys2Proof.core.run k t := by
  have : Sys2Proof.core.step s = .next t := h
  simp only [Host.Core.run, this]

/-- Every step answers a next state, with memory and the call stack as they were. -/
theorem step_answers (s : State) : ∃ t, step s = .next t ∧ t.mem = s.mem ∧ t.glyphTable = s.glyphTable ∧
    t.stack = s.stack ∧ t.sp = s.sp := by
  rcases step_cases s with ⟨_, e⟩ | ⟨_, _, e⟩ | ⟨_, _, e⟩ | ⟨_, _, _, e⟩ | ⟨_, _, _, e⟩ | ⟨_, _, _, e⟩
  · exact ⟨_, e, rfl, rfl, rfl, rfl⟩
  · exact ⟨_, e, rfl, rfl, rfl, rfl⟩
  · exact ⟨_, e, rfl, rfl, rfl, rfl⟩
  · exact ⟨_, e, rfl, rfl, rfl, rfl⟩
  · exact ⟨_, e, rfl, rfl, rfl, rfl⟩
  · obtain ⟨t, e', hm, hg, hk, hd, -⟩ := exec_answers s.afterFetch (decodeWord s.wordAtPc)
    exact ⟨t, by rw [e, e'], hm, hg, hk, hd⟩

/-- The induction over a run, packaged once: what holds at the start and is kept by every step holds at the end. -/
theorem run_induction {P : State → Prop} (hstep : ∀ s t, P s → step s = .next t → P t) (k : Nat) :
    ∀ s t, P s → Sys2Proof.core.run k s = .next t → P t := by
  induction k with
  | zero => intro s t h e; cases e; exact h
  | succ k ih =>
    intro s t h e
    obtain ⟨u, hu, -⟩ := step_answers s
    rw [run_succ_of_step k hu] at e
    exact ih u t (hstep s u h hu) e

end Sys2Proof.Machine
end

