-- ==== Sys2Proof/Tests/Slice0.lean ====
section
/-! SUPPORT. The model's own tests: the refusals of the well-formedness check, words written out from the spec's
encodings, one-step tests with the expected values of 95_test_vectors.md, and, for every statement with hypotheses, a
state that meets them. -/

namespace Sys2Proof.Tests

open Sys2Proof Sys2Proof.Machine

/-! ## Helpers -/

/-- A state with a word placed where its next step fetches. -/
def placed (w : Word) (s : State) : State := s.withFetchWord 16 w.toNat

/-- An outcome is a next state with a property. -/
def after (o : Host.Outcome State Fault Refusal) (p : State → Bool) : Bool :=
  match o with
  | .next t => p t
  | .fault _ => false
  | .refused _ => false

/-- The reset state with some registers set. -/
def withRegs (l : List (RegName × Byte)) (s : State) : State := l.foldl (fun s p => s.writeV p.1 p.2) s

/-- The cells that are on, as (column, row), in row-major order. -/
def cellsOn (s : State) : List (Nat × Nat) :=
  (List.range 32).flatMap fun y => (List.range 64).filterMap fun x =>
    if s.fbRead (Fin.ofNat 64 x) (Fin.ofNat 32 y) then some (x, y) else none

/-! ## Well-formedness: the check of the word an UNKNOWN carries (40_fetch_dispatch.md R86) -/

theorem test_illformed_end_word : (Instr.unknown 0x0000#16).wellFormed = false := by decide
theorem test_illformed_cls_word : (Instr.unknown 0x00E0#16).wellFormed = false := by decide
theorem test_illformed_jump_word : (Instr.unknown 0x1FFF#16).wellFormed = false := by decide
theorem test_illformed_setr_word : (Instr.unknown 0x6000#16).wellFormed = false := by decide
theorem test_illformed_addi_word : (Instr.unknown 0x7FFF#16).wellFormed = false := by decide
theorem test_illformed_seti_word : (Instr.unknown 0xA23F#16).wellFormed = false := by decide
theorem test_illformed_draw_word : (Instr.unknown 0xD012#16).wellFormed = false := by decide
theorem test_wellformed_unknown_words :
    [0x0001#16, 0x00EE#16, 0x0FFF#16, 0x2000#16, 0x5FFF#16, 0x8000#16, 0x9FFF#16, 0xB000#16, 0xCFFF#16, 0xE000#16,
      0xFFFF#16].all (fun w => (Instr.unknown w).wellFormed) = true := by decide

/-! ## Decoding: words written out bit by bit from 30_encoding.md R62, R64 -/

theorem test_decode_end : decodeTableWord 16 0b0000000000000000 = some .endOfProgram := by decide
theorem test_decode_cls : decodeTableWord 16 0b0000000011100000 = some .cls := by decide
theorem test_decode_jump : decodeTableWord 16 0b0001001000110100 = some (.jump 0x234#12) := by decide
theorem test_decode_setr : decodeTableWord 16 0b0110101000000111 = some (.setr 10 0x07#8) := by decide
theorem test_decode_addi : decodeTableWord 16 0b0111111100000010 = some (.addi 15 0x02#8) := by decide
theorem test_decode_seti : decodeTableWord 16 0b1010001000111111 = some (.seti 0x23F#12) := by decide
theorem test_decode_draw : decodeTableWord 16 0b1101000000010010 = some (.draw 0 1 2#4) := by decide
theorem test_decode_unknown : decodeTableWord 16 0b1000000100100100 = some (.unknown 0x8124#16) := by decide
theorem test_decode_truncated :
    (match decode [0x12#8] with | .error .truncated => true | .ok _ => false) = true := by decide
/-- 20_memory.md R42, the source's worked example. -/
theorem test_decode_big_endian :
    (match decode [0xA2#8, 0x3F#8] with | .ok (i, r) => i == .seti 0x23F#12 && r == [] | .error _ => false) = true := by
  decide
theorem test_encode_draw : encode (.draw 15 14 0#4) = [0xDF#8, 0xE0#8] := by decide

/-! ## One step of each instruction (95_test_vectors.md, Part 2) -/

/-- V-END-2: the zero pair astride two slots. -/
theorem test_end_odd_address :
    after (step (placed 0x0000#16 (State.reset.setPc 0x203)))
      (fun t => t.statusPort == (1, 1, 0x203#16) && t.pc == 0x205#16 && t.history == []) = true := by decide +kernel

/-- V-CLS-3. -/
theorem test_cls :
    after (step (placed 0x00E0#16 ((State.reset.fbWrite 63 31 true).writeV 15 1)))
      (fun t => t.fb == Framebuffer.clear && t.readV 15 == 1 && t.history == [.redraw]) = true := by decide +kernel

/-- V-JUMP-1. -/
theorem test_jump : after (step (placed 0x1234#16 State.reset)) (fun t => t.pc == 0x234#16) = true := by decide

/-- V-JUMP-4, then V-FETCH-5. -/
theorem test_jump_to_last_byte :
    after (Sys2Proof.core.run 2 (placed 0x1FFF#16 State.reset))
      (fun t => t.statusPort == (2, 4, 0x1000#16) && t.pc == 0xFFF#16) = true := by decide

/-- V-SETR-4. -/
theorem test_setr_vf : after (step (placed 0x6FAB#16 (State.reset.writeV 15 1))) (fun t => t.readV 15 == 0xAB#8) = true := by
  decide

/-- V-SETR-5. -/
theorem test_setr_one_register :
    after (step (placed 0x6722#16 (State.reset.setV (Vector.replicate 16 0x11))))
      (fun t => (List.finRange 16).all fun r => t.readV r == if r = 7 then 0x22#8 else 0x11#8) = true := by decide +kernel

/-- V-ADDI-1. -/
theorem test_addi_wraps :
    after (step (placed 0x7020#16 (State.reset.writeV 0 0xF0)))
      (fun t => t.readV 0 == 0x10#8 && t.readV 15 == 0) = true := by decide

/-- V-ADDI-7. -/
theorem test_addi_vf :
    after (step (placed 0x7FFF#16 (State.reset.writeV 15 0x07))) (fun t => t.readV 15 == 0x06#8) = true := by decide

/-- V-SETI-3. -/
theorem test_seti : after (step (placed 0xAFFF#16 State.reset)) (fun t => t.i == 0x0FFF#16) = true := by decide

/-- V-DRAW-4: wrap on both axes. -/
theorem test_draw_wraps :
    after (step (placed 0xD012#16
      ((withRegs [(0, 63), (1, 31)] State.reset).setI 0x300 |>.setMem [(0x300, 0xFF#8), (0x301, 0x81#8)])))
      (fun t => cellsOn t == [(6, 0), (63, 0), (0, 31), (1, 31), (2, 31), (3, 31), (4, 31), (5, 31), (6, 31), (63, 31)] &&
        t.readV 15 == 0) = true := by decide +kernel

/-- V-DRAW-11: the column comes from the old VF. -/
theorem test_draw_old_vf :
    after (step (placed 0xDF11#16
      ((withRegs [(15, 5), (1, 2)] State.reset).setI 0x300 |>.setMem [(0x300, 0xC0#8)])))
      (fun t => cellsOn t == [(5, 2), (6, 2)] && t.readV 15 == 0 && t.history == [.redraw]) = true := by decide +kernel

/-- V-UNK-2: a word of the historical instruction set. -/
theorem test_unknown :
    after (step (placed 0x00EE#16 State.reset))
      (fun t => t.history == [.reportUnknown 0x00EE#16] && t.pc == 0x202#16 && t.statusPort == (0, 0, 0) &&
        t.sp == 0) = true := by decide +kernel

/-! ## The other agents, the call stack, the loader -/

/-- V-TICK-3. -/
theorem test_tick :
    after (step ((State.reset.setTimers 1 255).setArrivals [.tick60]))
      (fun t => t.dt == 0 && t.st == 254#8 && t.pc == 0x200#16) = true := by decide

/-- V-QUIT-2: quit out of the halted condition. -/
theorem test_quit_halted :
    after (step ((State.reset.setPc 0x1000).setArrivals [.quit])) (fun t => t.statusPort == (1, 2, 0)) = true := by decide

/-- V-STK-4. -/
theorem test_push_full :
    ((State.reset.setStack State.reset.stack 64).pushStep 0x0ABC).statusPort = (2, 5, 0x0ABC#16) := by decide

/-- V-STK-2. -/
theorem test_push_pop : (State.reset.pushStep 0x0202).popStep.1 = some 0x0202#16 := by decide

/-- V-RST-2: a ROM of one byte. -/
theorem test_launch_one_byte :
    ((launch defaultGlyphTable [0xAA#8]).map fun s => (s.mem, after (step s) fun t => t.i == 0xA00#16)) =
      some ([(0x200, 0xAA#8)], true) := by decide +kernel

/-! ## Witnesses: for every statement with hypotheses, operands that meet them -/

/-- The state of most witnesses: SETR V0, 5 placed at the reset `PC`. -/
def ready : State := placed 0x6005#16 State.reset

theorem ready_fetches : Fetches ready 0x6005#16 := ⟨rfl, rfl, by decide, by decide⟩

theorem witness_DecodeOfEncode : (Instr.unknown 0x0001#16).wellFormed = true := by decide

theorem witness_DispatchByTopNibble :
    (0x00E0#16).toNat / 4096 = 0x0 ∧ (0x0FFF#16).toNat / 4096 = 0x0 ∧ (0x1000#16).toNat / 4096 = 0x1 ∧
    (0x6FFF#16).toNat / 4096 = 0x6 ∧ (0x7000#16).toNat / 4096 = 0x7 ∧ (0xAFFF#16).toNat / 4096 = 0xA ∧
    (0xD000#16).toNat / 4096 = 0xD ∧ (0x2000#16).toNat / 4096 = 0x2 ∧ (0xFFFF#16).toNat / 4096 = 0xF := by decide

theorem witness_StepRunsTheDecodedInstruction :
    ready.run = .running ∧ ready.nextArrival = .cycle ∧ ready.pc.toNat ≤ 4094 ∧
      decode [ready.byteAt ready.pc.toNat, ready.byteAt (ready.pc.toNat + 1)] = .ok (.setr 0 5#8, []) :=
  ⟨rfl, rfl, by decide, rfl⟩

theorem witness_FetchIsBigEndianAndAdvances : (State.reset.setPc 4094).pc.toNat ≤ 4094 ∧
    (State.reset.setPc 4094).run = .running ∧ (State.reset.setPc 4094).nextArrival = .cycle := by decide

/-- The halted state at its one reachable `PC`, with a given next event. -/
def haltedWith (l : List Arrival) : State := (State.reset.setPc 4096).setArrivals l

theorem haltedWith_halted (l : List Arrival) : (haltedWith l).halted := ⟨rfl, Nat.le_refl 4096⟩

theorem witness_HaltedConditionIsANoOp :
    (haltedWith []).nextArrival = .cycle ∧ (haltedWith [.tick60]).nextArrival = .tick60 ∧
    (haltedWith [.quit]).nextArrival = .quit ∧ Arrival.quit ∉ (haltedWith [.tick60, .cycle]).arrivals ∧
    after (Sys2Proof.core.run 3 (haltedWith [.tick60, .cycle])) (fun t => t.pc == 4096#16) = true := by decide

theorem witness_FetchAtLastByteAborts : (State.reset.setPc 4095).run = .running ∧
    (State.reset.setPc 4095).nextArrival = .cycle ∧ (State.reset.setPc 4095).pc.toNat = 4095 := by decide

theorem witness_EndedRunIsFrozen : (State.reset.raise .quit).run ≠ .running ∧
    (State.reset.raise (.memBounds 4096)).run ≠ .running := by decide

theorem witness_EndStopsTheRun : Fetches State.reset 0x0000#16 := ⟨rfl, rfl, by decide, by decide⟩

theorem witness_SetiWritesIndexOnly :
    ∃ t, step (placed 0xA23F#16 State.reset) = .next t ∧ t.i ≠ (placed 0xA23F#16 State.reset).i := ⟨_, rfl, by decide⟩

/-- The last target whose word lies inside the array, and the one whose word does not. -/
theorem witness_JumpWritesPcOnly : (0xFFE#12).toNat ≤ 4094 ∧ (0xFFF#12).toNat = 4095 := by decide

theorem witness_UnknownIsReportedAndSkipped :
    (0x0001#16 ≠ 0x0000#16 ∧ 0x0001#16 ≠ 0x00E0#16 ∧ (0x0001#16).toNat / 4096 ∉ [0x1, 0x6, 0x7, 0xA, 0xD]) ∧
    decodeWord 0x8124#16 = .unknown 0x8124#16 ∧ ready.cause ≠ 3 := by decide

theorem witness_UnknownIsFetched : Fetches (placed 0x8124#16 State.reset) 0x8124#16 := ⟨rfl, rfl, by decide, by decide⟩

theorem witness_DrawTogglesTheSprite : (0#4).toNat = 0 ∧
    (State.reset.setI 4095).i.toNat + (1#4).toNat ≤ 4096 ∧ (State.reset.setI 0).i.toNat + (15#4).toNat ≤ 4096 := by decide

theorem witness_DrawPastMemoryAborts : 1 ≤ (2#4).toNat ∧ 4096 < (State.reset.setI 4095).i.toNat + (2#4).toNat ∧
    1 ≤ (1#4).toNat ∧ 4096 < (State.reset.setI 4096).i.toNat + (1#4).toNat ∧ (State.reset.setI 4095).run = .running := by
  decide

theorem witness_DrawPastMemoryAborts_runs : ∃ t, exec (.draw 0 1 2#4) (State.reset.setI 4095) = .next t := ⟨_, rfl⟩

theorem witness_DrawTwiceRestoresTheScreen : (0 : RegName) ≠ vf ∧ (1 : RegName) ≠ vf ∧
    (State.reset.setI 0x50).i.toNat + (5#4).toNat ≤ 4096 ∧
    ∃ t u, exec (.draw 0 1 5#4) (State.reset.setI 0x50) = .next t ∧ exec (.draw 0 1 5#4) t = .next u :=
  ⟨by decide, by decide, by decide, _, _, rfl, rfl⟩

theorem witness_LaunchMeetsTheInvariant : ∃ s, launch defaultGlyphTable [0xAA#8] = some s :=
  Option.isSome_iff_exists.1 (by decide +kernel)

/-- The invariant holds in the state of most witnesses. -/
theorem ready_inv : ready.Inv :=
  ⟨by decide, by decide, rfl, by decide, rfl, rfl, by decide, by decide, by decide⟩

theorem witness_EveryStepKeepsTheInvariant : ready.Inv ∧ ∃ t, step ready = .next t := ⟨ready_inv, _, rfl⟩

theorem witness_runs : ∃ t, Sys2Proof.core.run 2 ready = .next t := ⟨_, rfl⟩

theorem witness_OnlyNamedWritersOfRegisters : ∃ t, step ready = .next t ∧ t.readV 0 ≠ ready.readV 0 :=
  ⟨_, rfl, by decide⟩

theorem witness_HowEachStepChangesPc :
    (∃ t, step ready = .next t) ∧ (State.reset.raise .quit).run ≠ .running ∧
    (ready.setArrivals [.tick60]).nextArrival ≠ .cycle ∧ 4096 ≤ (State.reset.setPc 4096).pc.toNat ∧
    (State.reset.setPc 4095).pc.toNat = 4095 ∧ decodeWord 0x1234#16 = .jump 0x234#12 :=
  ⟨⟨_, rfl⟩, by decide, by decide, by decide, by decide, by decide⟩

theorem witness_HowEachStepChangesPc_jump : Fetches (placed 0x1234#16 State.reset) 0x1234#16 :=
  ⟨rfl, rfl, by decide, by decide⟩

theorem witness_EveryWayOutOfRunning : ready.i.toNat ≤ 4095 ∧ ready.run = .running ∧ ∃ t, step ready = .next t :=
  ⟨by decide, rfl, _, rfl⟩

theorem witness_PathIsIndependentOfData :
    SamePath ready (ready.writeV 3 7) ∧ (∃ t, Sys2Proof.core.run 2 ready = .next t) ∧
      ∃ t, Sys2Proof.core.run 2 (ready.writeV 3 7) = .next t :=
  ⟨⟨rfl, rfl, rfl, rfl, rfl, fun _ => rfl, rfl⟩, ⟨_, rfl⟩, ⟨_, rfl⟩⟩

theorem witness_TickCountsBothTimersDown : (State.reset.setArrivals [.tick60]).run = .running ∧
    (State.reset.setArrivals [.tick60]).nextArrival = .tick60 := by decide

theorem witness_TimersChangeByTicksOnly : ready.nextArrival ≠ .tick60 ∧
    (State.reset.setArrivals [.tick60]).dt = 0 ∧ (State.reset.setArrivals [.tick60]).st = 0 := by decide

theorem witness_QuitStopsARunningMachine : (State.reset.setArrivals [.quit]).run = .running ∧
    (State.reset.setArrivals [.quit]).nextArrival = .quit ∧
    ((State.reset.raise (.memBounds 4096)).setArrivals [.quit]).run ≠ .running ∧
    ((State.reset.raise (.memBounds 4096)).setArrivals [.quit]).nextArrival = .quit := by decide

theorem witness_TakingAnEvent : (4096 : Nat) ≤ 0xFFFF ∧ (0xFFFF : Nat) ≤ 0xFFFF := by decide

/-- The last address of the array and the first past it. -/
theorem witness_MemoryBounds : (4095 : Nat) ≤ 4095 ∧ (4096 : Nat) ≤ 4096 ∧
    Memory.wf State.reset.glyphTable State.reset.mem := by decide

theorem witness_StoreIsSeenByTheNextFetch : (State.reset.setPc 4094).pc.toNat ≤ 4094 := by decide

theorem witness_EqualMemoriesAreEqualData : Memory.wf defaultGlyphTable [(0x50, 0#8), (0xFFF, 1#8)] ∧
    ∀ a, Memory.read defaultGlyphTable [(0x50, 0#8), (0xFFF, 1#8)] a =
      Memory.read defaultGlyphTable [(0x50, 0#8), (0xFFF, 1#8)] a := ⟨by decide, fun _ => rfl⟩

theorem witness_LaunchStateAsListed : ([] : List Byte).length ≤ 3584 ∧
    (List.replicate 3584 (0x12 : Byte)).length ≤ 3584 :=
  ⟨Nat.zero_le _, Nat.le_of_eq List.length_replicate⟩

theorem witness_PushWritesTheLowestFreeSlot :
    (State.reset.setStack State.reset.stack 63).sp.val < 64 ∧ (State.reset.setStack State.reset.stack 64).sp.val = 64 := by
  decide

theorem witness_PopReturnsTheNewestEntry :
    (State.reset.setStack State.reset.stack 64).sp.val = (63 : Fin 64).val + 1 ∧
    (State.reset.setStack State.reset.stack 1).sp.val = (0 : Fin 64).val + 1 ∧ State.reset.sp.val = 0 := by decide

theorem witness_FramebufferPort : ((63, 31) : Column × Row) ≠ (0, 31) := by decide

end Sys2Proof.Tests
end

section
/-! PROOFS. Facts about one step that several statements use: each step read backwards (`StepTo`), and, for an
instruction, which writes reach the status registers, `PC`, `I` and a general register. -/

namespace Sys2Proof.Machine

variable {s t : State}

/-! ## A state as fetch has left it -/

@[simp] theorem afterFetch_i (s : State) : s.afterFetch.i = s.i := rfl
@[simp] theorem afterFetch_pc (s : State) : s.afterFetch.pc = s.pc + 2 := rfl

/-- The advance of a fetch does not wrap. -/
theorem toNat_afterFetch_pc (h : s.pc.toNat ≤ 4094) : s.afterFetch.pc.toNat = s.pc.toNat + 2 := by
  rw [afterFetch_pc, BitVec.toNat_add]
  exact Nat.mod_eq_of_lt (by simp; omega)

@[simp] theorem toNat_zext16 (nnn : BitVec 12) : (zext16 nnn).toNat = nnn.toNat :=
  BitVec.toNat_setWidth_of_le (by omega)

/-! ## Each step read backwards -/

/-- How a step comes from `s` to `t`: one constructor for each situation a step can find (10_state.md R37,
40_fetch_dispatch.md R80). -/
inductive StepTo (s t : State) : Prop where
  | ended (hrun : s.run ≠ .running) (ht : t = s)
  | tick (hrun : s.run = .running) (harr : s.nextArrival = .tick60) (ht : t = tickStep s.takeArrival)
  | quit (hrun : s.run = .running) (harr : s.nextArrival = .quit) (ht : t = quitStep s.takeArrival)
  | halted (hrun : s.run = .running) (harr : s.nextArrival = .cycle) (hpc : 4096 ≤ s.pc.toNat)
      (ht : t = s.takeArrival)
  | lastByte (hrun : s.run = .running) (harr : s.nextArrival = .cycle) (hpc : s.pc.toNat = 4095)
      (ht : t = s.takeArrival.raise (.memBounds 4096))
  | fetched (w : Word) (hw : Fetches s w) (he : exec (decodeWord w) s.afterFetch = .next t)

/-- A running state whose next cycle finds a whole word fetches the word at `PC`. -/
theorem fetches_wordAtPc (hrun : s.run = .running) (harr : s.nextArrival = .cycle) (hpc : s.pc.toNat ≤ 4094) :
    Fetches s s.wordAtPc :=
  ⟨hrun, harr, hpc, (toNat_wordOfBytes _ _).symm⟩

theorem stepTo_of_step (h : step s = .next t) : StepTo s t := by
  rcases step_cases s with ⟨hr, e⟩ | ⟨hr, ha, e⟩ | ⟨hr, ha, e⟩ | ⟨hr, ha, hp, e⟩ | ⟨hr, ha, hp, e⟩ | ⟨hr, ha, hp, e⟩ <;>
    rw [h] at e
  · exact .ended hr (Host.Outcome.next.inj e)
  · exact .tick hr ha (Host.Outcome.next.inj e)
  · exact .quit hr ha (Host.Outcome.next.inj e)
  · exact .halted hr ha hp (Host.Outcome.next.inj e)
  · exact .lastByte hr ha hp (Host.Outcome.next.inj e)
  · exact .fetched _ (fetches_wordAtPc hr ha hp) e.symm

/-- A step that fetches `w` runs what `w` decodes to. -/
theorem Fetches.step_eq {w : Word} (hw : Fetches s w) : step s = exec (decodeWord w) s.afterFetch := by
  rw [step_fetch s hw.running hw.cycle hw.in_range, hw.wordAtPc]

/-- END is the decoding of no word but `0x0000` (30_encoding.md R64). -/
theorem eq_zero_of_decodeWord_eq_end {w : Word} (h : decodeWord w = .endOfProgram) : w = 0x0000#16 := by
  by_contra hne
  rw [decodeWord, if_neg hne, dispatchWord] at h
  split_ifs at h

/-! ## What an instruction writes -/

/-- Only END and an aborting DRAW write the status registers (60_exceptions.md R120). -/
theorem exec_status {i : Instr} (h : exec i s = .next t) :
    (t.run = s.run ∧ t.cause = s.cause ∧ t.causeInfo = s.causeInfo) ∨
    (i = .endOfProgram ∧ t.run = .stopped ∧ t.cause = 1 ∧ t.causeInfo = s.pc - 2) ∨
    ∃ x y n, i = .draw x y n ∧ 1 ≤ n.toNat ∧ 4096 < s.i.toNat + n.toNat ∧
      t.run = .faulted ∧ t.cause = 4 ∧ t.causeInfo = BitVec.ofNat 16 (max 4096 s.i.toNat) := by
  cases i with
  | endOfProgram => cases h; exact .inr (.inl ⟨rfl, rfl, rfl, rfl⟩)
  | draw x y n =>
    by_cases hin : n.toNat = 0 ∨ s.i.toNat + n.toNat ≤ 4096
    · obtain ⟨u, hu, -, -, hrest⟩ := execDraw_inside s x y n hin
      cases h.symm.trans hu
      exact .inl (by rw [hrest]; exact ⟨rfl, rfl, rfl⟩)
    · have hn : 1 ≤ n.toNat := by omega
      have hout : 4096 < s.i.toNat + n.toNat := by omega
      obtain ⟨u, hu, hrun, hcause, hinfo, -, -⟩ := execDraw_outside s x y n hn hout
      cases h.symm.trans hu
      exact .inr (.inr ⟨x, y, n, rfl, hn, hout, hrun, hcause, hinfo⟩)
  | cls => cases h; exact .inl ⟨rfl, rfl, rfl⟩
  | jump nnn => cases h; exact .inl ⟨rfl, rfl, rfl⟩
  | setr x nn => cases h; exact .inl ⟨rfl, rfl, rfl⟩
  | addi x nn => cases h; exact .inl ⟨rfl, rfl, rfl⟩
  | seti nnn => cases h; exact .inl ⟨rfl, rfl, rfl⟩
  | unknown w => cases h; exact .inl ⟨rfl, rfl, rfl⟩

/-- Memory, the call stack and the timers are as before any instruction (10_state.md R38). -/
theorem exec_keeps {i : Instr} (h : exec i s = .next t) :
    t.mem = s.mem ∧ t.glyphTable = s.glyphTable ∧ t.stack = s.stack ∧ t.sp = s.sp ∧ t.dt = s.dt ∧ t.st = s.st := by
  obtain ⟨u, hu, hmem, hglyph, hstack, hsp, hdt, hst, -⟩ := exec_answers s i
  cases h.symm.trans hu
  exact ⟨hmem, hglyph, hstack, hsp, hdt, hst⟩

theorem exec_pc_of_not_jump {i : Instr} (h : exec i s = .next t) (hi : ∀ nnn, i ≠ .jump nnn) : t.pc = s.pc := by
  obtain ⟨u, hu, -, -, -, -, -, -, -, hpc, -⟩ := exec_answers s i
  cases h.symm.trans hu
  exact hpc hi

theorem exec_i_of_not_seti {i : Instr} (h : exec i s = .next t) (hi : ∀ nnn, i ≠ .seti nnn) : t.i = s.i := by
  obtain ⟨u, hu, -, -, -, -, -, -, -, -, hindex⟩ := exec_answers s i
  cases h.symm.trans hu
  exact hindex hi

theorem exec_jump_pc {nnn : BitVec 12} (h : exec (.jump nnn) s = .next t) : t.pc.toNat = nnn.toNat := by
  cases h
  exact toNat_zext16 nnn

theorem exec_seti_i {nnn : BitVec 12} (h : exec (.seti nnn) s = .next t) : t.i.toNat = nnn.toNat := by
  cases h
  exact toNat_zext16 nnn

/-- DRAW writes no general register but VF. -/
theorem exec_draw_readV {x y : RegName} {n : BitVec 4} (h : exec (.draw x y n) s = .next t) {r : RegName}
    (hr : r ≠ vf) : t.readV r = s.readV r := by
  have drawn : ∃ rows, Drawn x y rows s t := by
    by_cases hin : n.toNat = 0 ∨ s.i.toNat + n.toNat ≤ 4096
    · obtain ⟨u, hu, hdrawn, -, -⟩ := execDraw_inside s x y n hin
      cases h.symm.trans hu
      exact ⟨_, hdrawn⟩
    · obtain ⟨u, hu, -, -, -, hdrawn, -⟩ := execDraw_outside s x y n (by omega) (by omega)
      cases h.symm.trans hu
      exact ⟨_, hdrawn⟩
  obtain ⟨rows, -, -, other⟩ := drawn
  exact other r hr

/-- The instructions that write a general register (10_state.md R11). -/
theorem writer_of_exec_readV_ne {i : Instr} {r : RegName} (h : exec i s = .next t) (hne : t.readV r ≠ s.readV r) :
    (∃ nn, i = .setr r nn ∨ i = .addi r nn) ∨ (r = vf ∧ ∃ x y n, i = .draw x y n) := by
  have named {x : RegName} {b : Byte} (ht : t = s.writeV x b) : r = x := by
    by_contra hrx
    exact hne (by rw [ht, readV_writeV_other s b hrx])
  cases i with
  | setr x nn => cases h; cases named rfl; exact .inl ⟨nn, .inl rfl⟩
  | addi x nn => cases h; cases named rfl; exact .inl ⟨nn, .inr rfl⟩
  | draw x y n =>
    refine .inr ⟨?_, x, y, n, rfl⟩
    by_contra hr
    exact hne (exec_draw_readV h hr)
  | endOfProgram => cases h; exact absurd rfl hne
  | cls => cases h; exact absurd rfl hne
  | jump nnn => cases h; exact absurd rfl hne
  | seti nnn => cases h; exact absurd rfl hne
  | unknown w => cases h; exact absurd rfl hne

end Sys2Proof.Machine
end

section
/-! PROOFS. The invariant of reachable states (10_state.md R38): every agent's step keeps it. -/

namespace Sys2Proof.Machine

variable {s t : State}

/-- Taking an event off the list is seen by no part of the invariant. -/
theorem State.Inv.takeArrival (h : s.Inv) : s.takeArrival.Inv := { h with }

/-- Timers at 0 stay there. -/
theorem State.Inv.tickStep (h : s.Inv) : (tickStep s).Inv :=
  { h with
    dt_zero := by simp [Machine.tickStep, h.dt_zero, countDown]
    st_zero := by simp [Machine.tickStep, h.st_zero, countDown] }

/-- An event that is no call-stack event latches a cause other than 0, 5 and 6, and ends the run. -/
theorem State.Inv.raise (h : s.Inv) {e : Event} (hcode : e.code = 1 ∨ e.code = 2 ∨ e.code = 4) : (s.raise e).Inv :=
  { h with
    cause_zero_iff_running := by cases e <;> simp [Event.code, Event.status]
    no_stack_event := by rcases hcode with hc | hc | hc <;> simp [hc] }

/-- The fetch advance of an in-range `PC` stays within 4096. -/
theorem State.Inv.afterFetch (h : s.Inv) (hpc : s.pc.toNat ≤ 4094) : s.afterFetch.Inv :=
  { h with pc_range := by rw [toNat_afterFetch_pc hpc]; omega }

theorem State.Inv.exec_pc_range (h : s.Inv) {i : Instr} (he : exec i s = .next t) : t.pc.toNat ≤ 4096 := by
  by_cases hi : ∃ nnn, i = .jump nnn
  · obtain ⟨nnn, rfl⟩ := hi
    rw [exec_jump_pc he]
    omega
  · rw [exec_pc_of_not_jump he (not_exists.1 hi)]
    exact h.pc_range

theorem State.Inv.exec_i_range (h : s.Inv) {i : Instr} (he : exec i s = .next t) : t.i.toNat ≤ 4095 := by
  by_cases hi : ∃ nnn, i = .seti nnn
  · obtain ⟨nnn, rfl⟩ := hi
    rw [exec_seti_i he]
    omega
  · rw [exec_i_of_not_seti he (not_exists.1 hi)]
    exact h.i_range

/-- What an instruction latches is 1 or 4, with the run ended; else the status is as it was. -/
theorem State.Inv.exec_cause (h : s.Inv) {i : Instr} (he : exec i s = .next t) :
    (t.cause = 0 ↔ t.run = .running) ∧ t.cause ≠ 5 ∧ t.cause ≠ 6 := by
  rcases exec_status he with ⟨hrun, hcause, -⟩ | ⟨-, hrun, hcause, -⟩ | ⟨-, -, -, -, -, -, hrun, hcause, -⟩
  · rw [hrun, hcause]
    exact ⟨h.cause_zero_iff_running, h.no_stack_event⟩
  · simp [hrun, hcause]
  · simp [hrun, hcause]

/-- Every instruction keeps the invariant. -/
theorem State.Inv.exec (h : s.Inv) {i : Instr} (he : exec i s = .next t) : t.Inv := by
  obtain ⟨hmem, hglyph, hstack, hsp, hdt, hst⟩ := exec_keeps he
  obtain ⟨hzero, hevent⟩ := h.exec_cause he
  exact
    { pc_range := h.exec_pc_range he
      i_range := h.exec_i_range he
      sp_zero := hsp.trans h.sp_zero
      stack_zero := fun k => by rw [hstack]; exact h.stack_zero k
      dt_zero := hdt.trans h.dt_zero
      st_zero := hst.trans h.st_zero
      mem_wf := by rw [hmem, hglyph]; exact h.mem_wf
      cause_zero_iff_running := hzero
      no_stack_event := hevent }

/-- Settles O25: each situation of a step keeps the invariant. -/
theorem everyStepKeepsTheInvariant : Obligations.EveryStepKeepsTheInvariant := by
  intro s t h hstep
  cases stepTo_of_step hstep with
  | ended _ ht => exact ht ▸ h
  | tick _ _ ht => exact ht ▸ h.takeArrival.tickStep
  | quit _ _ ht => exact ht ▸ h.takeArrival.raise (.inr (.inl rfl))
  | halted _ _ _ ht => exact ht ▸ h.takeArrival
  | lastByte _ _ _ ht => exact ht ▸ h.takeArrival.raise (.inr (.inr rfl))
  | fetched w hw he => exact (h.afterFetch hw.in_range).exec he

end Sys2Proof.Machine
end

section
/-! PROOFS. What a step and a run leave alone: an ended run, memory, the general registers, `PC`, the status registers
(10_state.md R11, R15, R22, R26, R37). -/

namespace Sys2Proof.Machine

variable {s t : State}

/-- Settles O10, by induction on the number of steps. -/
theorem endedRunIsFrozen : Obligations.EndedRunIsFrozen := by
  intro k s hrun
  induction k with
  | zero => rfl
  | succ k ih => rw [run_succ_of_step k (step_ended s hrun), ih]

/-- No step writes a memory cell or the glyph table. -/
theorem step_keeps_memory (h : step s = .next t) : t.mem = s.mem ∧ t.glyphTable = s.glyphTable := by
  obtain ⟨u, hu, hmem, hglyph, -⟩ := step_answers s
  cases h.symm.trans hu
  exact ⟨hmem, hglyph⟩

/-- Settles O26: what every step keeps, every run keeps. -/
theorem memoryIsNeverWritten : Obligations.MemoryIsNeverWritten := by
  intro k s t hk
  obtain ⟨hmem, hglyph⟩ : t.mem = s.mem ∧ t.glyphTable = s.glyphTable := by
    refine run_induction (P := fun u => u.mem = s.mem ∧ u.glyphTable = s.glyphTable) ?_ k s t ⟨rfl, rfl⟩ hk
    intro u u' ⟨hm, hg⟩ hstep
    obtain ⟨hm', hg'⟩ := step_keeps_memory hstep
    exact ⟨hm'.trans hm, hg'.trans hg⟩
  exact ⟨hmem, hglyph, byteAt_congr hmem hglyph⟩

/-- A step that fetches no word writes no general register, neither `PC` nor `I`, no cell of the framebuffer and
nothing of the event history. -/
theorem step_keeps_of_not_fetches (h : step s = .next t) (hno : ∀ w, ¬ Fetches s w) :
    t.v = s.v ∧ t.pc = s.pc ∧ t.i = s.i ∧ t.fb = s.fb ∧ t.history = s.history := by
  cases stepTo_of_step h with
  | fetched w hw _ => exact absurd hw (hno w)
  | ended _ ht => subst ht; exact ⟨rfl, rfl, rfl, rfl, rfl⟩
  | tick _ _ ht => subst ht; exact ⟨rfl, rfl, rfl, rfl, rfl⟩
  | quit _ _ ht => subst ht; exact ⟨rfl, rfl, rfl, rfl, rfl⟩
  | halted _ _ _ ht => subst ht; exact ⟨rfl, rfl, rfl, rfl, rfl⟩
  | lastByte _ _ _ ht => subst ht; exact ⟨rfl, rfl, rfl, rfl, rfl⟩

/-- Settles O27: a step that fetches nothing keeps the register file, and one that fetches writes what its instruction
writes. -/
theorem onlyNamedWritersOfRegisters : Obligations.OnlyNamedWritersOfRegisters := by
  intro s t r hstep hne
  by_cases hf : ∃ w, Fetches s w
  · obtain ⟨w, hw⟩ := hf
    exact ⟨w, hw, writer_of_exec_readV_ne (hw.step_eq.symm.trans hstep) hne⟩
  · obtain ⟨hv, -⟩ := step_keeps_of_not_fetches hstep (not_exists.1 hf)
    exact absurd (readV_congr hv r) hne

/-- Settles O28: the first four clauses are steps that fetch no word, the last two are an instruction's write of `PC`
over the advance of its fetch. -/
theorem howEachStepChangesPc : Obligations.HowEachStepChangesPc := by
  intro s t hstep
  have kept (hno : ∀ w, ¬ Fetches s w) : t.pc = s.pc := by
    obtain ⟨-, hpc, -⟩ := step_keeps_of_not_fetches hstep hno
    exact hpc
  have ran {w} (hw : Fetches s w) : exec (decodeWord w) s.afterFetch = .next t := hw.step_eq.symm.trans hstep
  refine ⟨fun hrun => ?_, fun harr => ?_, fun hpc => ?_, fun hpc => ?_, fun w nnn hw hjump => ?_, fun w hw hnot => ?_⟩
  · exact kept fun w hw => hrun hw.running
  · exact kept fun w hw => harr hw.cycle
  · exact kept fun w hw => by have := hw.in_range; omega
  · exact kept fun w hw => by have := hw.in_range; omega
  · exact exec_jump_pc (hjump ▸ ran hw)
  · rw [exec_pc_of_not_jump (ran hw) hnot, toNat_afterFetch_pc hw.in_range]

/-- Settles O29: a quit, the fetch at the last byte, END and an aborting DRAW are the steps that write the status
registers. -/
theorem everyWayOutOfRunning : Obligations.EveryWayOutOfRunning := by
  intro s t hi hrun hstep
  cases stepTo_of_step hstep with
  | ended hended _ => exact absurd hrun hended
  | tick _ _ ht => subst ht; exact .inl ⟨hrun, rfl, rfl⟩
  | halted _ _ _ ht => subst ht; exact .inl ⟨hrun, rfl, rfl⟩
  | quit _ harr ht => subst ht; exact .inr (.inr (.inl ⟨rfl, rfl, rfl, harr⟩))
  | lastByte _ harr hpc ht => subst ht; exact .inr (.inr (.inr ⟨rfl, rfl, rfl, harr, .inl hpc⟩))
  | fetched w hw he =>
    rcases exec_status he with ⟨hr, hc, hinfo⟩ | ⟨hend, hr, hc, hinfo⟩ | ⟨x, y, n, hdraw, hn, hout, hr, hc, hinfo⟩
    · exact .inl ⟨hr.trans hrun, hc, hinfo⟩
    · cases eq_zero_of_decodeWord_eq_end hend
      have hback : s.pc + 2 - 2 = s.pc := BitVec.add_sub_cancel s.pc 2
      exact .inr (.inl ⟨hr, hc, hinfo.trans hback, hw⟩)
    · have haddr : max 4096 s.afterFetch.i.toNat = 4096 := by rw [afterFetch_i]; omega
      rw [haddr] at hinfo
      exact .inr (.inr (.inr ⟨hr, hc, hinfo, hw.cycle, .inr ⟨w, x, y, n, hw, hdraw, hn, hout⟩⟩))

end Sys2Proof.Machine
end

section
/-! PROOFS. The launch state and the reset state (10_state.md R29, 70_reset_and_hazards.md R140 to R144), and the
framebuffer port (10_state.md R34). -/

namespace Sys2Proof.Machine

/-- Every ROM that fits is launched: the launch state is the zeroed state with `PC` at the program's base and a memory
in canonical form that holds the glyph table at 0x050, the ROM at 0x200 and 0 elsewhere. -/
theorem launch_answers (g : GlyphTable) (rom : List Byte) (hlen : rom.length ≤ 3584) : ∃ s, launch g rom = some s ∧
    s = { zeroedState g with pc := 0x200, mem := s.mem } ∧ Memory.wf g s.mem ∧
    (∀ k : Fin 80, s.byteAt (0x050 + k.val) = g[k]) ∧
    (∀ (k : Nat) (h : k < rom.length), s.byteAt (0x200 + k) = rom[k]) ∧
    (∀ a, (a < 0x050 ∨ 0x0A0 ≤ a) → (a < 0x200 ∨ 0x200 + rom.length ≤ a) → s.byteAt a = 0) := by
  obtain ⟨hwf0, hzero⟩ := zeroed_reads_zero g
  have hglen : g.toList.length = 80 := g.length_toList
  obtain ⟨t, hglyphs, ht, htbyte, htwf⟩ := loadBytes_ok g.toList 0x050 (zeroedState g) (by omega)
  obtain ⟨u, hprogram, hu, hubyte, huwf⟩ := loadBytes_ok rom 0x200 t (by omega)
  have hlaunch : launch g rom = some (startRun u) := by
    have hload : loadGlyphs (zeroedState g) = .ok t := hglyphs
    have hcopy : loadProgram rom t = .ok u := hprogram
    simp only [launch, Config.romMax, Config.memSize, Config.progBase, hload, hcopy, hlen, if_true]
  have hbyte : ∀ a, (startRun u).byteAt a = u.byteAt a := fun _ => rfl
  refine ⟨startRun u, hlaunch, by rw [hu, ht]; rfl, ?_, fun k => ?_, fun k hk => ?_, fun a hglyph hrom => ?_⟩
  · have hgt : t.glyphTable = g := by rw [ht]; rfl
    have hgu : u.glyphTable = g := by rw [hu]; exact hgt
    exact hgu ▸ huwf (htwf hwf0)
  · rw [hbyte, hubyte, dif_neg (by omega), htbyte, dif_pos (by omega)]
    simp
  · rw [hbyte, hubyte, dif_pos (by omega)]
    simp
  · rw [hbyte, hubyte, dif_neg (by omega), htbyte, dif_neg (by omega)]
    exact hzero a

/-- A ROM that does not fit is not launched (70_reset_and_hazards.md R142). -/
theorem length_le_of_launch {g : GlyphTable} {rom : List Byte} {s : State} (h : launch g rom = some s) :
    rom.length ≤ 3584 := by
  by_contra hlen
  rw [launch, if_neg (show ¬ rom.length ≤ Config.romMax from hlen)] at h
  cases h

/-- Settles O41: the registers are those of the zeroed state, the memory is what the loader put there. -/
theorem launchStateAsListed : Obligations.LaunchStateAsListed := by
  intro g rom hlen
  obtain ⟨s, hlaunch, hs, -, hglyphs, hprogram, hzero⟩ := launch_answers g rom hlen
  refine ⟨s, hlaunch, fun r => ?_, by rw [hs]; rfl, by rw [hs], fun k => ?_, by rw [hs]; rfl, by rw [hs]; rfl,
    by rw [hs]; rfl, fun x y => ?_, hglyphs, hprogram, hzero, by rw [hs]; rfl, by rw [hs]; rfl, by rw [hs]; rfl,
    by rw [hs]; rfl⟩
  · rw [hs]; simp [State.readV, zeroedState]
  · rw [hs]; simp [zeroedState]
  · rw [hs]; exact fbRead_fbClear (zeroedState g) x y

/-- The zeroed state with `PC` at the program's base meets the invariant, whatever its memory in canonical form. -/
theorem inv_of_zeroedState (g : GlyphTable) (m : Memory) (hwf : Memory.wf g m) :
    State.Inv { zeroedState g with pc := 0x200, mem := m } where
  pc_range := by simp
  i_range := by simp [zeroedState]
  sp_zero := rfl
  stack_zero k := by simp [zeroedState]
  dt_zero := rfl
  st_zero := rfl
  mem_wf := hwf
  cause_zero_iff_running := by simp [zeroedState]
  no_stack_event := by simp [zeroedState]

/-- Settles O24: what the loader adds to the zeroed state is a memory in canonical form. -/
theorem launchMeetsTheInvariant : Obligations.LaunchMeetsTheInvariant := by
  intro g rom s h
  obtain ⟨s', hlaunch, hs, hwf, -⟩ := launch_answers g rom (length_le_of_launch h)
  cases h.symm.trans hlaunch
  rw [hs]
  exact inv_of_zeroedState g s.mem hwf

/-- Settles O23: the reset state is the zeroed state with `PC` at the program's base and no cell listed. -/
theorem resetMeetsTheInvariant : Obligations.ResetMeetsTheInvariant :=
  inv_of_zeroedState defaultGlyphTable [] (Memory.nil_wf _)

/-- Replacing the framebuffer touches nothing else. -/
theorem untouched_setFb (s : State) (f : Framebuffer) : Untouched [.fb] s (s.setFb f) :=
  untouched_of_fields (fun _ => rfl) (fun _ => rfl) (fun _ => rfl) (fun _ => ⟨rfl, rfl⟩) (fun _ => ⟨rfl, rfl⟩)
    (fun h => absurd (List.mem_singleton_self _) h) (fun _ => ⟨rfl, rfl⟩) (fun _ => ⟨rfl, rfl, rfl⟩) (fun _ => rfl)
    (fun _ => rfl)

/-- Settles O48: both operations replace the framebuffer only. -/
theorem framebufferPort : Obligations.FramebufferPort := by
  intro s
  refine ⟨⟨fbRead_fbClear s, untouched_setFb s _⟩, fun x y b => ⟨?_, fun z w hne => ?_, untouched_setFb s _⟩⟩
  · rw [fbRead_fbWrite, if_pos ⟨rfl, rfl⟩]
  · rw [fbRead_fbWrite, if_neg fun ⟨hz, hw⟩ => hne (by rw [hz, hw])]

end Sys2Proof.Machine
end

section
/-! PROOFS. Memory: the two accesses of the datapath and the fetch after a store (20_memory.md R44 to R46, R51), the
placing of a word at `PC` (log 10), and that the canonical form of a memory is determined by its bytes (log 13). -/

namespace Sys2Proof.Machine

variable (s : State)

/-! ## Reads and writes -/

/-- Settles O37: the range check of a read decides both clauses. -/
theorem memReadAnswersByteOrBounds : Obligations.MemReadAnswersByteOrBounds :=
  fun s _ => ⟨fun h => memRead_ok s (Nat.lt_succ_of_le h), memRead_error s⟩

/-- A store touches nothing but memory. -/
theorem untouched_storeByte (a : Nat) (b : Byte) : Untouched [.mem] s (s.storeByte a b) :=
  untouched_of_fields (fun _ => rfl) (fun _ => rfl) (fun _ => rfl) (fun _ => ⟨rfl, rfl⟩) (fun _ => ⟨rfl, rfl⟩)
    (fun _ => rfl) (fun h => absurd (List.mem_singleton_self _) h) (fun _ => ⟨rfl, rfl, rfl⟩) (fun _ => rfl)
    (fun _ => rfl)

/-- Settles O38: inside the array a write is the store of one byte, which reads back and keeps the rest. -/
theorem memWriteStoresOneByte : Obligations.MemWriteStoresOneByte := by
  refine fun s a b => ⟨fun h => ?_, memWrite_error s b⟩
  have ha : a < 4096 := Nat.lt_succ_of_le h
  refine ⟨s.storeByte a b, memWrite_ok s b ha, ?_, fun c hc => ?_, rfl, untouched_storeByte s a b,
    storeByte_wf s b ha⟩
  · rw [memRead_ok _ ha, byteAt_storeByte, if_pos rfl]
  · rw [byteAt_storeByte, if_neg hc.symm]

/-! ## Two bytes stored at `PC` -/

/-- Bytes stored at `PC` and `PC + 1` make the word at `PC`, high byte first (20_memory.md R42). -/
theorem wordAtPc_storeByte_storeByte (hi lo : Byte) :
    ((s.storeByte s.pc.toNat hi).storeByte (s.pc.toNat + 1) lo).wordAtPc = wordOfBytes hi lo := by
  simp [State.wordAtPc, byteAt_storeByte]

@[simp] theorem storeWordAtPc_run (w : Word) : (s.storeWordAtPc w).run = s.run := rfl
@[simp] theorem storeWordAtPc_pc (w : Word) : (s.storeWordAtPc w).pc = s.pc := rfl
@[simp] theorem storeWordAtPc_nextArrival (w : Word) : (s.storeWordAtPc w).nextArrival = s.nextArrival := rfl

theorem wordAtPc_storeWordAtPc (w : Word) : (s.storeWordAtPc w).wordAtPc = w := by
  rw [State.storeWordAtPc, wordAtPc_storeByte_storeByte, wordOfBytes_of_bytes]

/-- Settles O39: both writes are stores inside the array, and the fetch reads the word they make. -/
theorem storeIsSeenByTheNextFetch : Obligations.StoreIsSeenByTheNextFetch := by
  intro s hi lo hpc
  let t := s.storeByte s.pc.toNat hi
  let u := t.storeByte (s.pc.toNat + 1) lo
  have hfetch : u.fetch = .ok u.wordAtPc := fetch_ok u (Nat.lt_succ_of_le (Nat.succ_le_succ hpc))
  refine ⟨t, u, u.wordAtPc, memWrite_ok s hi (by omega), memWrite_ok t lo (by omega), hfetch, ?_⟩
  rw [wordAtPc_storeByte_storeByte, toNat_wordOfBytes]

/-! ## A word placed where the next step fetches -/

@[simp] theorem setPc_nextArrival (w : Word) : (s.setPc w).nextArrival = s.nextArrival := rfl
@[simp] theorem setStatus_nextArrival (r : RunStatus) (c : BitVec 3) (info : Word) :
    (s.setStatus r c info).nextArrival = s.nextArrival := rfl
@[simp] theorem setArrivals_cons_nextArrival (a : Arrival) (as : List Arrival) :
    (s.setArrivals (a :: as)).nextArrival = a := rfl

theorem readyToFetch_run : s.readyToFetch.run = .running := by
  simp only [State.readyToFetch, apply_ite State.run, setPc_run, setArrivals_run, setStatus_run, ite_self]
  split
  next hrun => exact hrun
  next => rfl

theorem readyToFetch_nextArrival : s.readyToFetch.nextArrival = .cycle := by
  simp only [State.readyToFetch, apply_ite State.nextArrival, setPc_nextArrival, setArrivals_cons_nextArrival,
    setStatus_nextArrival, ite_self]
  split
  next harr => exact harr
  next => rfl

theorem toNat_readyToFetch_pc_le : s.readyToFetch.pc.toNat ≤ 4094 := by
  simp only [State.readyToFetch, apply_ite State.pc, setPc_pc, setArrivals_pc, setStatus_pc, ite_self]
  split
  next hpc => exact Nat.le_of_lt_succ (Nat.lt_of_succ_lt_succ hpc)
  next => decide

/-- Placing the number of a 16-bit word stores that word. -/
theorem withFetchWord_eq_storeWordAtPc (w : Word) :
    s.withFetchWord 16 w.toNat = s.readyToFetch.storeWordAtPc w := by
  rw [State.withFetchWord, Nat.mod_eq_of_lt w.isLt, BitVec.ofNat_toNat, BitVec.setWidth_eq]

/-- From any state, the next step after a word is placed is a cycle that fetches it. -/
theorem fetches_withFetchWord (w : Word) : Fetches (s.withFetchWord 16 w.toNat) w := by
  rw [withFetchWord_eq_storeWordAtPc]
  have hfetches : Fetches (s.readyToFetch.storeWordAtPc w) (s.readyToFetch.storeWordAtPc w).wordAtPc :=
    fetches_wordAtPc (by rw [storeWordAtPc_run, readyToFetch_run])
      (by rw [storeWordAtPc_nextArrival, readyToFetch_nextArrival])
      (by rw [storeWordAtPc_pc]; exact toNat_readyToFetch_pc_le s)
  rwa [wordAtPc_storeWordAtPc] at hfetches

/-- Settles O12: the step fetches the placed word, and a step that fetches a word runs it. -/
theorem placedWordRunsNext : Obligations.PlacedWordRunsNext :=
  fun s w => (fetches_withFetchWord s w).step_eq

/-! ## The canonical form -/

/-- A byte found by a lookup is a listed cell. -/
theorem Memory.mem_of_lookup {m : Memory} {a : Nat} {b : Byte} (h : Memory.lookup m a = some b) : (a, b) ∈ m := by
  induction m with
  | nil => cases h
  | cons c m ih =>
    obtain ⟨k, d⟩ := c
    rw [Memory.lookup] at h
    split at h
    next hk => subst hk; cases h; exact List.mem_cons_self
    next => exact List.mem_cons_of_mem _ (ih h)

/-- In canonical form the listed cells are the bytes that differ from what an unlisted address reads as. -/
theorem Memory.mem_iff_read {g : GlyphTable} {m : Memory} (hwf : Memory.wf g m) (a : Nat) (b : Byte) :
    (a, b) ∈ m ↔ Memory.read g m a = b ∧ b ≠ Memory.unlisted g a := by
  obtain ⟨hrising, hcells⟩ := hwf
  constructor
  · intro hmem
    obtain ⟨-, hne⟩ := hcells (a, b) hmem
    exact ⟨by rw [Memory.read, Memory.lookup_of_mem m a b hrising hmem, Option.getD_some], hne⟩
  · rintro ⟨hread, hne⟩
    cases hlookup : Memory.lookup m a with
    | none => rw [Memory.read, hlookup] at hread; exact absurd hread.symm hne
    | some d => rw [Memory.read, hlookup] at hread; cases hread; exact Memory.mem_of_lookup hlookup

/-- Settles O40: the two lists have the same cells, and a strictly rising list is determined by its members. -/
theorem equalMemoriesAreEqualData : Obligations.EqualMemoriesAreEqualData := by
  intro g m n hm hn hread
  have hcells : ∀ c : Host.Cell, c ∈ m ↔ c ∈ n := fun (a, b) => by
    rw [Memory.mem_iff_read hm, Memory.mem_iff_read hn, hread]
  have : Std.Irrefl fun c d : Host.Cell => c.1 < d.1 := ⟨fun _ => Nat.lt_irrefl _⟩
  have : Std.Antisymm fun c d : Host.Cell => c.1 < d.1 := ⟨fun _ _ h h' => absurd h' (Nat.lt_asymm h)⟩
  obtain ⟨hmRising, -⟩ := hm
  obtain ⟨hnRising, -⟩ := hn
  exact hmRising.eq_of_mem_iff hnRising hcells

end Sys2Proof.Machine
end

section
/-! PROOFS. The encoding (30_encoding.md R64 to R69): what a word decodes to, said once (`DecodesTo`), the fields of an
encoded instruction, and the rows of the opcode map as conditions on a word. -/

namespace Sys2Proof

variable {w : Word}

/-! ## What a word decodes to -/

theorem family_ne {k : Nat} (htop : w.toNat / 4096 ≠ k) (hk : k < 16) : w.family ≠ BitVec.ofNat 4 k :=
  mt (family_eq_iff w hk).1 htop

theorem isUnknown_iff : w.isUnknown = true ↔ w ≠ 0x0000#16 ∧ w ≠ 0x00E0#16 ∧ w.toNat / 4096 ≠ 0x1 ∧
    w.toNat / 4096 ≠ 0x6 ∧ w.toNat / 4096 ≠ 0x7 ∧ w.toNat / 4096 ≠ 0xA ∧ w.toNat / 4096 ≠ 0xD := by
  simp only [Word.isUnknown, Bool.and_eq_true, bne_iff_ne, and_assoc]

/-- The instruction of each word, one constructor for each row of the opcode map (30_encoding.md R64): the condition on
the word that selects the row, and the operands from the word's fields. -/
inductive DecodesTo (w : Word) : Instr → Prop where
  | endOfProgram (hw : w = 0x0000#16) : DecodesTo w .endOfProgram
  | cls (hw : w = 0x00E0#16) : DecodesTo w .cls
  | jump (htop : w.toNat / 4096 = 0x1) : DecodesTo w (.jump w.fieldNNN)
  | setr (htop : w.toNat / 4096 = 0x6) : DecodesTo w (.setr w.fieldX w.fieldNN)
  | addi (htop : w.toNat / 4096 = 0x7) : DecodesTo w (.addi w.fieldX w.fieldNN)
  | seti (htop : w.toNat / 4096 = 0xA) : DecodesTo w (.seti w.fieldNNN)
  | draw (htop : w.toNat / 4096 = 0xD) : DecodesTo w (.draw w.fieldX w.fieldY w.fieldN)
  | unknown (hw : w.isUnknown = true) : DecodesTo w (.unknown w)

/-- A word whose top nibble is not 0 is not END's, and is dispatched by that nibble. -/
theorem decodeWord_of_top {k : Nat} (htop : w.toNat / 4096 = k) (hk : 0 < k ∧ k < 16) :
    decodeWord w = dispatchWord w ∧ w.family = BitVec.ofNat 4 k := by
  obtain ⟨hpos, hlt⟩ := hk
  have hne : w ≠ 0x0000#16 := by rintro rfl; exact hpos.ne htop
  exact ⟨if_neg hne, (family_eq_iff w hlt).2 htop⟩

theorem DecodesTo.decodeWord_eq {i : Instr} (h : DecodesTo w i) : decodeWord w = i := by
  cases h with
  | endOfProgram hw => subst hw; rfl
  | cls hw => subst hw; rfl
  | jump htop | setr htop | addi htop | seti htop | draw htop =>
    obtain ⟨hdispatch, hfamily⟩ := decodeWord_of_top htop (by decide)
    rw [hdispatch, dispatchWord, hfamily]
    rfl
  | unknown hw =>
    obtain ⟨hend, hcls, hjump, hsetr, haddi, hseti, hdraw⟩ := isUnknown_iff.1 hw
    rw [decodeWord, if_neg hend, dispatchWord, if_neg hcls, if_neg (family_ne hjump (by decide)),
      if_neg (family_ne hsetr (by decide)), if_neg (family_ne haddi (by decide)),
      if_neg (family_ne hseti (by decide)), if_neg (family_ne hdraw (by decide)), ite_self]

/-- A word that is not unknown meets the condition of one of the first seven rows. -/
theorem exists_decodesTo (w : Word) : ∃ i, DecodesTo w i := by
  by_cases hw : w.isUnknown = true
  · exact ⟨_, .unknown hw⟩
  · rw [isUnknown_iff] at hw
    by_contra hnone
    exact hw ⟨fun h => hnone ⟨_, .endOfProgram h⟩, fun h => hnone ⟨_, .cls h⟩, fun h => hnone ⟨_, .jump h⟩,
      fun h => hnone ⟨_, .setr h⟩, fun h => hnone ⟨_, .addi h⟩, fun h => hnone ⟨_, .seti h⟩,
      fun h => hnone ⟨_, .draw h⟩⟩

theorem decodesTo_decodeWord (w : Word) : DecodesTo w (decodeWord w) := by
  obtain ⟨i, h⟩ := exists_decodesTo w
  exact h.decodeWord_eq ▸ h

/-! ## Encoding what was decoded -/

theorem DecodesTo.encodeWord_eq {i : Instr} (h : DecodesTo w i) : encodeWord i = w := by
  apply BitVec.eq_of_toNat_eq
  obtain ⟨-, hx, hy, hn, hnn, hnnn⟩ := toNat_fields w
  cases h with
  | endOfProgram hw => subst hw; rfl
  | cls hw => subst hw; rfl
  | jump htop | setr htop | addi htop | seti htop | draw htop => rw [toNat_encodeWord]; dsimp only; omega
  | unknown _ => rfl

theorem DecodesTo.wellFormed {i : Instr} (h : DecodesTo w i) : i.wellFormed = true := by
  cases h with
  | unknown hw => exact hw
  | endOfProgram _ | cls _ | jump _ | setr _ | addi _ | seti _ | draw _ => rfl

/-- Settles O2: each row's operands hold all the bits of the word that the row does not fix. -/
theorem encodeOfDecode : Obligations.EncodeOfDecode :=
  fun w => ⟨(decodesTo_decodeWord w).wellFormed, (decodesTo_decodeWord w).encodeWord_eq⟩

/-! ## Decoding what was encoded -/

theorem fieldNNN_eq (nnn : BitVec 12) (h : w.toNat % 4096 = nnn.toNat) : w.fieldNNN = nnn := by
  obtain ⟨-, -, -, -, -, hnnn⟩ := toNat_fields w
  exact BitVec.eq_of_toNat_eq (hnnn.trans h)

theorem fieldNN_eq (nn : Byte) (h : w.toNat % 256 = nn.toNat) : w.fieldNN = nn := by
  obtain ⟨-, -, -, -, hnn, -⟩ := toNat_fields w
  exact BitVec.eq_of_toNat_eq (hnn.trans h)

theorem fieldN_eq (n : BitVec 4) (h : w.toNat % 16 = n.toNat) : w.fieldN = n := by
  obtain ⟨-, -, -, hn, -, -⟩ := toNat_fields w
  exact BitVec.eq_of_toNat_eq (hn.trans h)

theorem fieldX_eq (x : RegName) (h : w.toNat / 256 % 16 = x.val) : w.fieldX = x := by
  obtain ⟨-, hx, -⟩ := toNat_fields w
  exact Fin.ext (hx.trans h)

theorem fieldY_eq (y : RegName) (h : w.toNat / 16 % 16 = y.val) : w.fieldY = y := by
  obtain ⟨-, -, hy, -⟩ := toNat_fields w
  exact Fin.ext (hy.trans h)

theorem decodeWord_encodeWord {i : Instr} (hwf : i.wellFormed = true) : decodeWord (encodeWord i) = i := by
  have hval := toNat_encodeWord i
  cases i with
  | endOfProgram => rfl
  | cls => rfl
  | jump nnn =>
    dsimp only at hval
    rw [(DecodesTo.jump (by omega)).decodeWord_eq, fieldNNN_eq nnn (by omega)]
  | seti nnn =>
    dsimp only at hval
    rw [(DecodesTo.seti (by omega)).decodeWord_eq, fieldNNN_eq nnn (by omega)]
  | setr x nn =>
    dsimp only at hval
    rw [(DecodesTo.setr (by omega)).decodeWord_eq, fieldX_eq x (by omega), fieldNN_eq nn (by omega)]
  | addi x nn =>
    dsimp only at hval
    rw [(DecodesTo.addi (by omega)).decodeWord_eq, fieldX_eq x (by omega), fieldNN_eq nn (by omega)]
  | draw x y n =>
    dsimp only at hval
    rw [(DecodesTo.draw (by omega)).decodeWord_eq, fieldX_eq x (by omega), fieldY_eq y (by omega),
      fieldN_eq n (by omega)]
  | unknown w => exact (DecodesTo.unknown hwf).decodeWord_eq

theorem decode_encode_append (i : Instr) (rest : List Byte) :
    decode (encode i ++ rest) = .ok (decodeWord (encodeWord i), rest) := by
  simp only [encode, List.cons_append, List.nil_append, decode, wordOfBytes_of_bytes]

/-- Settles O1: the word of an instruction meets its row's condition and holds each operand in its field, and the two
bytes of an encoding make its word again. -/
theorem decodeOfEncode : Obligations.DecodeOfEncode := by
  refine fun i hwf => ⟨decodeWord_encodeWord hwf, fun rest => ?_⟩
  rw [decode_encode_append, decodeWord_encodeWord hwf]

/-! ## The rows of the opcode map -/

/-- A row that fixes all 16 bits of its words. -/
def wholeWordRow (mnemonic : String) (word : Word) : OpcodeRow := ⟨mnemonic, 0xFFFF#16, word⟩

/-- A row that fixes the top nibble of its words. -/
def topNibbleRow (mnemonic : String) (k : Nat) : OpcodeRow := ⟨mnemonic, 0xF000#16, BitVec.ofNat 16 (k * 4096)⟩

theorem opcodeMap_eq : opcodeMap =
    [wholeWordRow "END" 0x0000#16, wholeWordRow "CLS" 0x00E0#16, topNibbleRow "JUMP" 0x1, topNibbleRow "SETR" 0x6,
      topNibbleRow "ADDI" 0x7, topNibbleRow "SETI" 0xA, topNibbleRow "DRAW" 0xD,
      ⟨"UNKNOWN", 0x0000#16, 0x0000#16⟩] := rfl

@[simp] theorem wholeWordRow_mnemonic (m : String) (p : Word) : (wholeWordRow m p).mnemonic = m := rfl
@[simp] theorem topNibbleRow_mnemonic (m : String) (k : Nat) : (topNibbleRow m k).mnemonic = m := rfl

@[simp] theorem selects_wholeWordRow (m : String) (p : Word) : (wholeWordRow m p).selects w = decide (w = p) := by
  have hall : w &&& 0xFFFF#16 = w := BitVec.and_allOnes
  rw [OpcodeRow.selects, wholeWordRow, hall, beq_eq_decide]

@[simp] theorem selects_topNibbleRow (m : String) {k : Nat} (hk : k < 16) :
    (topNibbleRow m k).selects w = decide (w.toNat / 4096 = k) := by
  rw [OpcodeRow.selects, topNibbleRow, beq_eq_decide, decide_eq_decide, and_topMask_eq_iff w hk]

@[simp] theorem selects_anyWordRow (m : String) : (OpcodeRow.mk m 0x0000#16 0x0000#16).selects w = true := by
  rw [OpcodeRow.selects, BitVec.and_zero, beq_self_eq_true]

/-- The conditions of `DecodesTo` are those of the map's rows in their order. -/
theorem DecodesTo.firstRow_mnemonic {i : Instr} (h : DecodesTo w i) :
    (firstRow opcodeMap w).map (·.mnemonic) = some i.mnemonic := by
  cases h with
  | endOfProgram hw => subst hw; rfl
  | cls hw => subst hw; rfl
  | jump htop | setr htop | addi htop | seti htop | draw htop =>
    have hend : w ≠ 0x0000#16 := by rintro rfl; cases htop
    have hcls : w ≠ 0x00E0#16 := by rintro rfl; cases htop
    simp [opcodeMap_eq, firstRow, Instr.mnemonic, hend, hcls, htop]
  | unknown hw => simp [opcodeMap_eq, firstRow, Instr.mnemonic, isUnknown_iff.1 hw]

/-- The top nibbles of rows 3 to 7 differ from each other and from that of the words of rows 1 and 2. -/
theorem opcodeMap_rows_disjoint :
    (opcodeMap.take 7).Pairwise (fun a b => ∀ w : Word, ¬(a.selects w = true ∧ b.selects w = true)) := by
  simp +contextual [opcodeMap_eq]

/-- Settles O3: the row of the map that comes first is the row whose condition the decoded instruction meets. -/
theorem decoderFollowsOpcodeMap : Obligations.DecoderFollowsOpcodeMap :=
  ⟨fun w => (decodesTo_decodeWord w).firstRow_mnemonic, opcodeMap_rows_disjoint⟩

end Sys2Proof
end

section
/-! PROOFS. No run gets stuck (30_encoding.md R67, 60_exceptions.md R128). -/

namespace Sys2Proof.Machine

/-- Settles O11, by induction on the number of steps: each of them answers a next state. -/
theorem everyStepAnswersANextState : Obligations.EveryStepAnswersANextState := by
  intro k
  induction k with
  | zero => exact fun s => ⟨s, rfl⟩
  | succ k ih =>
    intro s
    obtain ⟨t, hstep, -⟩ := step_answers s
    rw [run_succ_of_step k hstep]
    exact ih t

end Sys2Proof.Machine
end

section
/-! PROOFS. Frames: how `Untouched` composes, and the parts that fetch, an event taken and a halted step touch. -/

namespace Sys2Proof.Machine

variable {s t u : State}

theorem Untouched.mono {l m : List Part} (h : Untouched l s t) (hlm : l ⊆ m) : Untouched m s t where
  v hp := h.v (mt (@hlm _) hp)
  i hp := h.i (mt (@hlm _) hp)
  pc hp := h.pc (mt (@hlm _) hp)
  stack hp := h.stack (mt (@hlm _) hp)
  timers hp := h.timers (mt (@hlm _) hp)
  fb hp := h.fb (mt (@hlm _) hp)
  mem hp := h.mem (mt (@hlm _) hp)
  status hp := h.status (mt (@hlm _) hp)
  history hp := h.history (mt (@hlm _) hp)
  arrivals hp := h.arrivals (mt (@hlm _) hp)

theorem Untouched.refl (l : List Part) (s : State) : Untouched l s s :=
  untouched_of_fields (fun _ => rfl) (fun _ => rfl) (fun _ => rfl) (fun _ => ⟨rfl, rfl⟩) (fun _ => ⟨rfl, rfl⟩)
    (fun _ => rfl) (fun _ => ⟨rfl, rfl⟩) (fun _ => ⟨rfl, rfl, rfl⟩) (fun _ => rfl) (fun _ => rfl)

theorem Untouched.trans {l : List Part} (h : Untouched l s t) (h' : Untouched l t u) : Untouched l s u where
  v hp r := (h'.v hp r).trans (h.v hp r)
  i hp := (h'.i hp).trans (h.i hp)
  pc hp := (h'.pc hp).trans (h.pc hp)
  stack hp := by
    obtain ⟨hstack, hsp⟩ := h'.stack hp
    rw [hstack, hsp]
    exact h.stack hp
  timers hp := by
    obtain ⟨hdt, hst⟩ := h'.timers hp
    rw [hdt, hst]
    exact h.timers hp
  fb hp x y := (h'.fb hp x y).trans (h.fb hp x y)
  mem hp := by
    obtain ⟨hglyph, hbytes⟩ := h.mem hp
    obtain ⟨hglyph', hbytes'⟩ := h'.mem hp
    exact ⟨hglyph'.trans hglyph, fun a => (hbytes' a).trans (hbytes a)⟩
  status hp := by
    obtain ⟨hrun, hcause, hinfo⟩ := h'.status hp
    rw [hrun, hcause, hinfo]
    exact h.status hp
  history hp := (h'.history hp).trans (h.history hp)
  arrivals hp := (h'.arrivals hp).trans (h.arrivals hp)

theorem untouched_afterFetch (s : State) : Untouched [.pc, .arrivals] s s.afterFetch :=
  untouched_of_fields (fun _ => rfl) (fun _ => rfl) (fun h => absurd (by decide) h) (fun _ => ⟨rfl, rfl⟩)
    (fun _ => ⟨rfl, rfl⟩) (fun _ => rfl) (fun _ => ⟨rfl, rfl⟩) (fun _ => ⟨rfl, rfl, rfl⟩) (fun _ => rfl)
    (fun h => absurd (by decide) h)

/-- Taking an event writes the status registers only (60_exceptions.md R128). -/
theorem untouched_raise (s : State) (e : Event) : Untouched [.status] s (s.raise e) :=
  untouched_of_fields (fun _ => rfl) (fun _ => rfl) (fun _ => rfl) (fun _ => ⟨rfl, rfl⟩) (fun _ => ⟨rfl, rfl⟩)
    (fun _ => rfl) (fun _ => ⟨rfl, rfl⟩) (fun h => absurd (by decide) h) (fun _ => rfl) (fun _ => rfl)

theorem untouched_takeArrival_setTimers (s : State) (d d' : Byte) :
    Untouched [.timers, .arrivals] s (s.takeArrival.setTimers d d') :=
  untouched_of_fields (fun _ => rfl) (fun _ => rfl) (fun _ => rfl) (fun _ => ⟨rfl, rfl⟩)
    (fun h => absurd (by decide) h) (fun _ => rfl) (fun _ => ⟨rfl, rfl⟩) (fun _ => ⟨rfl, rfl, rfl⟩) (fun _ => rfl)
    (fun h => absurd (by decide) h)

end Sys2Proof.Machine
end

section
/-! PROOFS. Fetch and dispatch (40_fetch_dispatch.md R80 to R87): the word at `PC` and the instruction it decodes to, the
end of a run by END, the halted condition and the fetch that runs past memory. -/

namespace Sys2Proof.Machine

variable {s t : State}

/-! ## Dispatch -/

/-- Settles O4: each top nibble selects one row, whose operands are the word's fields; a word of family 0 that is neither
END's nor CLS's, and a word of the ten families with no row, meet the condition of UNKNOWN. -/
theorem dispatchByTopNibble : Obligations.DispatchByTopNibble := by
  intro w hne
  obtain ⟨-, hx, hy, hn, hnn, hnnn⟩ := toNat_fields w
  refine ⟨fun htop => ?_, fun htop => ⟨_, (DecodesTo.jump htop).decodeWord_eq, hnnn⟩,
    fun htop => ⟨_, _, (DecodesTo.setr htop).decodeWord_eq, hx, hnn⟩,
    fun htop => ⟨_, _, (DecodesTo.addi htop).decodeWord_eq, hx, hnn⟩,
    fun htop => ⟨_, (DecodesTo.seti htop).decodeWord_eq, hnnn⟩,
    fun htop => ⟨_, _, _, (DecodesTo.draw htop).decodeWord_eq, hx, hy, hn⟩, fun htop => ?_⟩
  · split
    next hcls => exact (DecodesTo.cls hcls).decodeWord_eq
    next hcls => exact (DecodesTo.unknown (isUnknown_iff.2 ⟨hne, hcls, by simp [htop]⟩)).decodeWord_eq
  · have noRow : ∀ k ∈ [0x2, 0x3, 0x4, 0x5, 0x8, 0x9, 0xB, 0xC, 0xE, 0xF],
        k ≠ 0x1 ∧ k ≠ 0x6 ∧ k ≠ 0x7 ∧ k ≠ 0xA ∧ k ≠ 0xD := by decide
    have hcls : w ≠ 0x00E0#16 := by rintro rfl; exact absurd htop (by decide)
    exact (DecodesTo.unknown (isUnknown_iff.2 ⟨hne, hcls, noRow _ htop⟩)).decodeWord_eq

/-! ## Fetch -/

/-- Settles O7: the fetch reads the word at `PC`, and a step runs that word after the advance. -/
theorem fetchIsBigEndianAndAdvances : Obligations.FetchIsBigEndianAndAdvances :=
  fun s hpc => ⟨s.wordAtPc, fetch_ok s (Nat.lt_succ_of_le (Nat.succ_le_succ hpc)), toNat_wordOfBytes _ _,
    toNat_afterFetch_pc hpc, fun hrun harr => step_fetch s hrun harr hpc⟩

/-- Settles O6: the two bytes at `PC` decode to what the word at `PC` decodes to. -/
theorem stepRunsTheDecodedInstruction : Obligations.StepRunsTheDecodedInstruction := by
  intro s i hrun harr hpc hdecode
  have hi : decodeWord s.wordAtPc = i := congrArg Prod.fst (Except.ok.inj hdecode)
  rw [step_fetch s hrun harr hpc, hi]

/-- Settles O9: the abort writes the status registers of the state with its event taken. -/
theorem fetchAtLastByteAborts : Obligations.FetchAtLastByteAborts :=
  step_last

/-! ## END -/

/-- A word runs the instruction it decodes to. -/
theorem wordRuns_of_decodeWord {w : Word} {i : Instr} (h : decodeWord w = i) : WordRuns w i :=
  ⟨h, fun _ hw => by rw [hw.step_eq, h]⟩

/-- Settles O13: END takes its event and does nothing else, the fetch's advance is undone in the address it records, and
an ended run is frozen. -/
theorem endStopsTheRun : Obligations.EndStopsTheRun := by
  refine ⟨wordRuns_of_decodeWord rfl, fun s => ⟨_, rfl, rfl, rfl, rfl, untouched_raise s _⟩, fun s hw => ?_⟩
  let t := s.afterFetch.raise (.endOfProgram (s.pc + 2 - 2))
  have hfetch : Untouched [.status, .pc, .arrivals] s s.afterFetch := (untouched_afterFetch s).mono (by simp)
  have hraise : Untouched [.status, .pc, .arrivals] s.afterFetch t := (untouched_raise s.afterFetch _).mono (by simp)
  have hended : t.run ≠ .running := nofun
  exact ⟨t, hw.step_eq, rfl, rfl, BitVec.add_sub_cancel s.pc 2, rfl, hfetch.trans hraise,
    fun k => endedRunIsFrozen k t hended⟩

/-! ## The halted condition -/

theorem nextArrival_ne_of_not_mem {a : Arrival} (ha : a ≠ .cycle) (h : a ∉ s.arrivals) : s.nextArrival ≠ a := by
  rw [State.nextArrival]
  cases hl : s.arrivals with
  | nil => exact ha.symm
  | cons b l => rintro rfl; exact h (by rw [hl]; exact List.mem_cons_self)

/-- A halted step that is no quit takes its event and writes at most the timers. -/
theorem step_of_halted (h : s.halted) (hquit : s.nextArrival ≠ .quit) :
    ∃ d d', step s = .next (s.takeArrival.setTimers d d') := by
  obtain ⟨hrun, hpc⟩ := h
  cases harr : s.nextArrival with
  | cycle => exact ⟨s.dt, s.st, step_halted s hrun harr hpc⟩
  | tick60 => exact ⟨_, _, step_tick s hrun harr⟩
  | quit => exact absurd harr hquit

/-- While no quit is listed, a halted machine stays halted and only timers and events change. -/
theorem halted_run {k : Nat} (h : s.halted) (hquit : Arrival.quit ∉ s.arrivals)
    (hk : Sys2Proof.core.run k s = .next t) : t.halted ∧ Untouched [.timers, .arrivals] s t := by
  obtain ⟨hhalted, -, hframe⟩ : t.halted ∧ Arrival.quit ∉ t.arrivals ∧ Untouched [.timers, .arrivals] s t := by
    refine run_induction (P := fun u => u.halted ∧ Arrival.quit ∉ u.arrivals ∧ Untouched [.timers, .arrivals] s u)
      ?_ k s t ⟨h, hquit, .refl _ s⟩ hk
    intro u u' ⟨hu, hq, hsu⟩ hstep
    obtain ⟨d, d', he⟩ := step_of_halted hu (nextArrival_ne_of_not_mem (by decide) hq)
    cases hstep.symm.trans he
    exact ⟨hu, mt List.mem_of_mem_tail hq, hsu.trans (untouched_takeArrival_setTimers u d d')⟩
  exact ⟨hhalted, hframe⟩

/-- Settles O8: of the three events only a quit ends the halted condition. -/
theorem haltedConditionIsANoOp : Obligations.HaltedConditionIsANoOp := by
  refine ⟨fun s ⟨hrun, hpc⟩ harr => ?_, fun k s t h hquit hk => ?_, fun s ⟨hrun, hpc⟩ harr => ?_,
    fun s ⟨hrun, _⟩ harr => ?_⟩
  · exact step_halted s hrun harr hpc
  · exact halted_run h hquit hk
  · exact ⟨_, step_tick s hrun harr, ⟨hrun, hpc⟩, toNat_countDown s.dt, toNat_countDown s.st⟩
  · exact ⟨_, step_quit s hrun harr, rfl⟩

end Sys2Proof.Machine
end

section
/-! PROOFS. The path of a program (41_flow_and_registers.md R95): two states on the same path find the same situation at
each step, fetch the same word, and are left on the same path by it. -/

namespace Sys2Proof.Machine

variable {s t s' t' : State}

/-! ## Two states on the same path -/

theorem SamePath.nextArrival_eq (h : SamePath s t) : s.nextArrival = t.nextArrival := by
  rw [State.nextArrival, h.arrivals, State.nextArrival]

/-- Both states fetch the same word. -/
theorem SamePath.fetches {w : Word} (h : SamePath s t) (hw : Fetches s w) : Fetches t w where
  running := h.run ▸ hw.running
  cycle := h.nextArrival_eq ▸ hw.cycle
  in_range := h.pc ▸ hw.in_range
  word := by rw [← h.pc, ← h.mem, ← h.mem, hw.word]

theorem SamePath.takeArrival (h : SamePath s t) : SamePath s.takeArrival t.takeArrival :=
  { h with arrivals := congrArg List.tail h.arrivals }

theorem SamePath.afterFetch (h : SamePath s t) : SamePath s.afterFetch t.afterFetch :=
  { h with
    pc := congrArg (· + 2) h.pc
    arrivals := congrArg List.tail h.arrivals }

/-- A tick writes data only. -/
theorem SamePath.tickStep (h : SamePath s t) : SamePath (tickStep s) (tickStep t) := { h with }

/-- The status an event latches does not depend on the state. -/
theorem SamePath.raise (h : SamePath s t) (e : Event) : SamePath (s.raise e) (t.raise e) :=
  { h with
    run := rfl
    cause := rfl
    causeInfo := rfl }

/-! ## Every instruction keeps the path -/

/-- Whether DRAW aborts, and at which address, depends on `I` and `N` only (42_display.md R104); the operand registers
place the sprite, which is data. -/
theorem SamePath.exec_draw {x y : RegName} {n : BitVec 4} (h : SamePath s t) (hs : exec (.draw x y n) s = .next s')
    (ht : exec (.draw x y n) t = .next t') : SamePath s' t' := by
  by_cases hin : n.toNat = 0 ∨ s.i.toNat + n.toNat ≤ 4096
  · obtain ⟨u, hu, -, -, hrest⟩ := execDraw_inside s x y n hin
    obtain ⟨u', hu', -, -, hrest'⟩ := execDraw_inside t x y n (h.i ▸ hin)
    cases hs.symm.trans hu
    cases ht.symm.trans hu'
    rw [hrest, hrest']
    exact { h with }
  · have hn : 1 ≤ n.toNat := by omega
    have hout : 4096 < s.i.toNat + n.toNat := by omega
    obtain ⟨u, hu, hrun, hcause, hinfo, -, hrest⟩ := execDraw_outside s x y n hn hout
    obtain ⟨u', hu', hrun', hcause', hinfo', -, hrest'⟩ := execDraw_outside t x y n hn (h.i ▸ hout)
    cases hs.symm.trans hu
    cases ht.symm.trans hu'
    rw [hrest, hrest']
    exact
      { h with
        run := hrun.trans hrun'.symm
        cause := hcause.trans hcause'.symm
        causeInfo := by rw [hinfo, hinfo', h.i] }

/-- An instruction writes data, or writes the same `PC`, `I` or status in both states. -/
theorem SamePath.exec {i : Instr} (h : SamePath s t) (hs : exec i s = .next s') (ht : exec i t = .next t') :
    SamePath s' t' := by
  cases i with
  | draw x y n => exact h.exec_draw hs ht
  | endOfProgram =>
    cases hs; cases ht
    rw [h.pc]
    exact h.raise _
  | jump nnn => cases hs; cases ht; exact { h with pc := rfl }
  | seti nnn => cases hs; cases ht; exact { h with i := rfl }
  | cls => cases hs; cases ht; exact { h with }
  | setr x nn => cases hs; cases ht; exact { h with }
  | addi x nn => cases hs; cases ht; exact { h with }
  | unknown w => cases hs; cases ht; exact { h with }

/-! ## Every step and every run keeps the path -/

/-- Both states find the same situation. -/
theorem SamePath.step (h : SamePath s t) (hs : step s = .next s') (ht : step t = .next t') : SamePath s' t' := by
  cases stepTo_of_step hs with
  | ended hrun hs' =>
    cases ht.symm.trans (step_ended t (h.run ▸ hrun))
    exact hs' ▸ h
  | tick hrun harr hs' =>
    cases ht.symm.trans (step_tick t (h.run ▸ hrun) (h.nextArrival_eq ▸ harr))
    exact hs' ▸ h.takeArrival.tickStep
  | quit hrun harr hs' =>
    cases ht.symm.trans (step_quit t (h.run ▸ hrun) (h.nextArrival_eq ▸ harr))
    exact hs' ▸ h.takeArrival.raise .quit
  | halted hrun harr hpc hs' =>
    cases ht.symm.trans (step_halted t (h.run ▸ hrun) (h.nextArrival_eq ▸ harr) (h.pc ▸ hpc))
    exact hs' ▸ h.takeArrival
  | lastByte hrun harr hpc hs' =>
    cases ht.symm.trans (step_last t (h.run ▸ hrun) (h.nextArrival_eq ▸ harr) (h.pc ▸ hpc))
    exact hs' ▸ h.takeArrival.raise _
  | fetched w hw he => exact h.afterFetch.exec he ((h.fetches hw).step_eq.symm.trans ht)

/-- Settles O32, by induction on the number of steps: each of them keeps the two states on the same path. -/
theorem pathIsIndependentOfData : Obligations.PathIsIndependentOfData := by
  intro k
  induction k with
  | zero => intro s t s' t' h hs ht; cases hs; cases ht; exact h
  | succ k ih =>
    intro s t s' t' h hs ht
    obtain ⟨u, hu, -⟩ := step_answers s
    obtain ⟨v, hv, -⟩ := step_answers t
    rw [run_succ_of_step k hu] at hs
    rw [run_succ_of_step k hv] at ht
    exact ih u v s' t' (h.step hu hv) hs ht

end Sys2Proof.Machine
end

section
/-! PROOFS. JUMP, SETR, ADDI and SETI (41_flow_and_registers.md R91 to R94): the word that runs each, the one register it
writes and its frame. -/

namespace Sys2Proof.Machine

variable (s : State)

/-- The number of a well-formed instruction's word (30_encoding.md R69) is a word that runs the instruction. -/
theorem wordRuns_ofNat {i : Instr} {n : Nat} (hwf : i.wellFormed = true) (hn : (encodeWord i).toNat = n) :
    WordRuns (BitVec.ofNat 16 n) i := by
  rw [← hn, BitVec.ofNat_toNat, BitVec.setWidth_eq]
  exact wordRuns_of_decodeWord (decodeWord_encodeWord hwf)

/-! ## Frames of the named writes -/

theorem untouched_setPc (w : Word) : Untouched [.pc] s (s.setPc w) :=
  untouched_of_fields (fun _ => rfl) (fun _ => rfl) (fun h => absurd (by decide) h) (fun _ => ⟨rfl, rfl⟩)
    (fun _ => ⟨rfl, rfl⟩) (fun _ => rfl) (fun _ => ⟨rfl, rfl⟩) (fun _ => ⟨rfl, rfl, rfl⟩) (fun _ => rfl) (fun _ => rfl)

theorem untouched_setI (w : Word) : Untouched [.i] s (s.setI w) :=
  untouched_of_fields (fun _ => rfl) (fun h => absurd (by decide) h) (fun _ => rfl) (fun _ => ⟨rfl, rfl⟩)
    (fun _ => ⟨rfl, rfl⟩) (fun _ => rfl) (fun _ => ⟨rfl, rfl⟩) (fun _ => ⟨rfl, rfl, rfl⟩) (fun _ => rfl) (fun _ => rfl)

theorem untouched_writeV (r : RegName) (b : Byte) : Untouched [.v] s (s.writeV r b) :=
  untouched_of_fields (fun h => absurd (by decide) h) (fun _ => rfl) (fun _ => rfl) (fun _ => ⟨rfl, rfl⟩)
    (fun _ => ⟨rfl, rfl⟩) (fun _ => rfl) (fun _ => ⟨rfl, rfl⟩) (fun _ => ⟨rfl, rfl, rfl⟩) (fun _ => rfl) (fun _ => rfl)

/-! ## JUMP -/

/-- Settles O15: JUMP writes `PC`, and the fetch from the new `PC` reads the bytes at the target or runs past memory. -/
theorem jumpWritesPcOnly : Obligations.JumpWritesPcOnly := by
  refine fun nnn => ⟨wordRuns_ofNat rfl (toNat_encodeWord (.jump nnn)), fun s => ?_⟩
  let t := s.setPc (zext16 nnn)
  have hpc : t.pc.toNat = nnn.toNat := toNat_zext16 nnn
  refine ⟨t, rfl, hpc, untouched_setPc s _, fun hin => ⟨t.wordAtPc, fetch_ok t (by omega), ?_⟩, fun hlast => ?_⟩
  · rw [State.wordAtPc, toNat_wordOfBytes, hpc]
    rfl
  · rw [fetch_error t (by omega), hpc, hlast]

/-! ## SETR and ADDI -/

/-- Settles O16: SETR is one write of the register file. -/
theorem setrWritesOneRegister : Obligations.SetrWritesOneRegister :=
  fun x nn => ⟨wordRuns_ofNat rfl (toNat_encodeWord (.setr x nn)), fun s =>
    ⟨s.writeV x nn, rfl, readV_writeV_same s x nn, fun _ hr => readV_writeV_other s nn hr, untouched_writeV s x nn⟩⟩

/-- Settles O17: ADDI is one write of the register file, of the wrapping sum; VF is written where `X` names it only. -/
theorem addiWrapsAndWritesNoFlag : Obligations.AddiWrapsAndWritesNoFlag := by
  refine fun x nn => ⟨wordRuns_ofNat rfl (toNat_encodeWord (.addi x nn)), fun s => ?_⟩
  refine ⟨_, rfl, ?_, fun _ hr => readV_writeV_other s _ hr, untouched_writeV s x _⟩
  rw [readV_writeV_same, addBytes_eq, BitVec.toNat_add]

/-! ## SETI -/

/-- A step that changes `I` fetched a SETI. -/
theorem fetches_seti_of_step_i_ne {t : State} (h : step s = .next t) (hne : t.i ≠ s.i) :
    ∃ w nnn, Fetches s w ∧ decodeWord w = .seti nnn := by
  by_cases hf : ∃ w, Fetches s w
  · obtain ⟨w, hw⟩ := hf
    by_contra hnone
    have hi : t.i = s.afterFetch.i :=
      exec_i_of_not_seti (hw.step_eq.symm.trans h) fun nnn hseti => hnone ⟨w, nnn, hw, hseti⟩
    exact hne hi
  · obtain ⟨-, -, hi, -⟩ := step_keeps_of_not_fetches h (not_exists.1 hf)
    exact absurd hi hne

/-- Settles O18: SETI writes `I`, and no other step does. -/
theorem setiWritesIndexOnly : Obligations.SetiWritesIndexOnly :=
  ⟨fun nnn => ⟨wordRuns_ofNat rfl (toNat_encodeWord (.seti nnn)), fun s =>
    ⟨s.setI (zext16 nnn), rfl, toNat_zext16 nnn, untouched_setI s _⟩⟩, fun s _ => fetches_seti_of_step_i_ne s⟩

end Sys2Proof.Machine
end

section
/-! PROOFS. CLS and DRAW (42_display.md R101 to R107): the words that run them, their frames, the sprite drawn twice, and
which steps emit an output event. -/

namespace Sys2Proof.Machine

variable {s t u : State}

/-! ## Frames -/

theorem untouched_emit (s : State) (e : OutEvent) : Untouched [.history] s (s.emit e) :=
  untouched_of_fields (fun _ => rfl) (fun _ => rfl) (fun _ => rfl) (fun _ => ⟨rfl, rfl⟩) (fun _ => ⟨rfl, rfl⟩)
    (fun _ => rfl) (fun _ => ⟨rfl, rfl⟩) (fun _ => ⟨rfl, rfl, rfl⟩) (fun h => absurd (by decide) h) (fun _ => rfl)

theorem untouched_setV (s : State) (v : Vector Byte 16) : Untouched [.v] s (s.setV v) :=
  untouched_of_fields (fun h => absurd (by decide) h) (fun _ => rfl) (fun _ => rfl) (fun _ => ⟨rfl, rfl⟩)
    (fun _ => ⟨rfl, rfl⟩) (fun _ => rfl) (fun _ => ⟨rfl, rfl⟩) (fun _ => ⟨rfl, rfl, rfl⟩) (fun _ => rfl) (fun _ => rfl)

theorem untouched_setStatus (s : State) (r : RunStatus) (c : BitVec 3) (info : Word) :
    Untouched [.status] s (s.setStatus r c info) :=
  untouched_of_fields (fun _ => rfl) (fun _ => rfl) (fun _ => rfl) (fun _ => ⟨rfl, rfl⟩) (fun _ => ⟨rfl, rfl⟩)
    (fun _ => rfl) (fun _ => ⟨rfl, rfl⟩) (fun h => absurd (by decide) h) (fun _ => rfl) (fun _ => rfl)

/-- What drawing writes before it emits or aborts. -/
theorem untouched_setV_setFb (s : State) (v : Vector Byte 16) (f : Framebuffer) :
    Untouched [.v, .fb] s ((s.setV v).setFb f) :=
  ((untouched_setV s v).mono (by simp)).trans ((untouched_setFb (s.setV v) f).mono (by simp))

/-! ## CLS -/

/-- Settles O14: CLS clears the framebuffer and emits one event. -/
theorem clsClearsEveryCell : Obligations.ClsClearsEveryCell := by
  refine ⟨wordRuns_of_decodeWord rfl, fun s => ⟨s.fbClear.emit .redraw, rfl, fbRead_fbClear s, rfl, ?_⟩⟩
  have hclear : Untouched [.fb, .history] s s.fbClear := (untouched_setFb s _).mono (by simp)
  exact hclear.trans ((untouched_emit s.fbClear .redraw).mono (by simp))

/-! ## DRAW -/

/-- Settles O20: the row loop draws every row and emits one event. -/
theorem drawTogglesTheSprite : Obligations.DrawTogglesTheSprite := by
  refine fun x y n => ⟨wordRuns_ofNat rfl (toNat_encodeWord (.draw x y n)), fun s hin => ?_⟩
  obtain ⟨t, he, hdrawn, hhistory, hrest⟩ := execDraw_inside s x y n hin
  have hframe : Untouched [.v, .fb, .history] s t := by
    rw [hrest, hhistory]
    exact ((untouched_setV_setFb s t.v t.fb).mono (by simp)).trans ((untouched_emit _ .redraw).mono (by simp))
  exact ⟨t, he, hdrawn, hhistory, hframe⟩

/-- Settles O21: the row loop stops at the first row past memory, and of the two ways a DRAW ends only that one writes
the status registers. -/
theorem drawPastMemoryAborts : Obligations.DrawPastMemoryAborts := by
  refine ⟨fun x y n s hn hout => ?_, fun x y n s t hrun he => ⟨fun hfaulted => ?_, fun ⟨hn, hout⟩ => ?_⟩⟩
  · obtain ⟨t, he, hrun, hcause, hinfo, hdrawn, hrest⟩ := execDraw_outside s x y n hn hout
    have haddr : t.causeInfo.toNat = max 4096 s.i.toNat := by
      rw [hinfo, BitVec.toNat_ofNat]
      exact Nat.mod_eq_of_lt (by omega)
    have hframe : Untouched [.v, .fb, .status] s t := by
      rw [hrest]
      exact ((untouched_setV_setFb s t.v t.fb).mono (by simp)).trans
        ((untouched_setStatus _ t.run t.cause t.causeInfo).mono (by simp))
    exact ⟨t, he, hrun, hcause, haddr, hdrawn, hframe⟩
  · rcases exec_status he with ⟨hkept, -⟩ | ⟨hend, -⟩ | ⟨_, _, _, hdraw, hn, hout, -⟩
    · rw [hkept, hrun] at hfaulted
      cases hfaulted
    · cases hend
    · cases hdraw
      exact ⟨hn, hout⟩
  · obtain ⟨t', he', hfaulted, -⟩ := execDraw_outside s x y n hn hout
    cases he.symm.trans he'
    exact hfaulted

/-! ## The sprite drawn twice -/

/-- The cells under a sprite depend on `I` and memory only. -/
theorem spriteMask_congr (hbytes : ∀ a, t.byteAt a = s.byteAt a) (hi : t.i = s.i) (x0 y0 rows : Nat) :
    spriteMask t x0 y0 rows = spriteMask s x0 y0 rows := by
  funext cx cy
  simp only [spriteMask, hbytes, hi]

/-- A toggled cell is lit exactly when it was unlit. -/
theorem toggled_lit_iff (cell mask : Bool) : (xor cell mask = true ∧ mask = true) ↔ (cell = false ∧ mask = true) := by
  cases mask with
  | false => simp
  | true => simp

/-- Two drawings over the same cells cancel, and the second one meets a lit cell where the first one met an unlit
one. -/
theorem Drawn.twice {x y : RegName} {rows : Nat} (hx : x ≠ vf) (hy : y ≠ vf)
    (hbytes : ∀ a, t.byteAt a = s.byteAt a) (hi : t.i = s.i) (h : Drawn x y rows s t) (h' : Drawn x y rows t u) :
    (∀ cx cy, u.fbRead cx cy = s.fbRead cx cy) ∧
    u.readV vf = if ∃ cx cy, s.fbRead cx cy = false ∧
        spriteMask s ((s.readV x).toNat % 64) ((s.readV y).toNat % 32) rows cx cy = true then 1 else 0 := by
  obtain ⟨hfb, -, hother⟩ := h
  obtain ⟨hfb', hflag', -⟩ := h'
  rw [hother x hx, hother y hy, spriteMask_congr hbytes hi] at hfb' hflag'
  refine ⟨fun cx cy => ?_, ?_⟩
  · rw [hfb', hfb, Bool.xor_assoc, Bool.xor_self, Bool.xor_false]
  · simp only [hflag', hfb, toggled_lit_iff]

/-- Settles O22: the first DRAW leaves memory, `I` and the origin's registers as they were, so the second one draws over
the same cells. -/
theorem drawTwiceRestoresTheScreen : Obligations.DrawTwiceRestoresTheScreen := by
  intro x y n s t u hx hy hin hst htu
  obtain ⟨t', ht', hdrawn, -, hrest⟩ := execDraw_inside s x y n (.inr hin)
  cases hst.symm.trans ht'
  have hi : t.i = s.i := by rw [hrest]
  have hbytes : ∀ a, t.byteAt a = s.byteAt a := byteAt_congr (by rw [hrest]) (by rw [hrest])
  obtain ⟨u', hu', hdrawn', -⟩ := execDraw_inside t x y n (.inr (hi ▸ hin))
  cases htu.symm.trans hu'
  exact hdrawn.twice hx hy hbytes hi hdrawn'

/-! ## Output events -/

/-- Everything an instruction does to the event history: CLS and a DRAW inside memory emit one redraw, UNKNOWN one report
(10_state.md R36). -/
theorem exec_history {i : Instr} (h : exec i s = .next t) :
    (t.history = s.history ∧ i ≠ .cls ∧ (∀ w, i ≠ .unknown w) ∧
      ∀ x y n, i = .draw x y n → 1 ≤ n.toNat ∧ 4096 < s.i.toNat + n.toNat) ∨
    (t.history = s.history ++ [.redraw] ∧
      (i = .cls ∨ ∃ x y n, i = .draw x y n ∧ (n.toNat = 0 ∨ s.i.toNat + n.toNat ≤ 4096))) ∨
    ∃ w, i = .unknown w ∧ t.history = s.history ++ [.reportUnknown w] := by
  cases i with
  | cls => cases h; exact .inr (.inl ⟨rfl, .inl rfl⟩)
  | unknown w => cases h; exact .inr (.inr ⟨w, rfl, rfl⟩)
  | draw x y n =>
    by_cases hin : n.toNat = 0 ∨ s.i.toNat + n.toNat ≤ 4096
    · obtain ⟨u, hu, -, hhistory, -⟩ := execDraw_inside s x y n hin
      cases h.symm.trans hu
      exact .inr (.inl ⟨hhistory, .inr ⟨x, y, n, rfl, hin⟩⟩)
    · have hn : 1 ≤ n.toNat := by omega
      have hout : 4096 < s.i.toNat + n.toNat := by omega
      obtain ⟨u, hu, -, -, -, -, hrest⟩ := execDraw_outside s x y n hn hout
      cases h.symm.trans hu
      exact .inl ⟨by rw [hrest], nofun, nofun, by rintro _ _ _ ⟨⟩; exact ⟨hn, hout⟩⟩
  | endOfProgram => cases h; exact .inl ⟨rfl, nofun, nofun, nofun⟩
  | jump nnn => cases h; exact .inl ⟨rfl, nofun, nofun, nofun⟩
  | setr x nn => cases h; exact .inl ⟨rfl, nofun, nofun, nofun⟩
  | addi x nn => cases h; exact .inl ⟨rfl, nofun, nofun, nofun⟩
  | seti nnn => cases h; exact .inl ⟨rfl, nofun, nofun, nofun⟩

/-- The word an UNKNOWN carries is the word it was decoded from. -/
theorem eq_of_decodeWord_eq_unknown {w w' : Word} (h : decodeWord w = .unknown w') : w' = w := by
  have hencode : encodeWord (decodeWord w) = w := (encodeOfDecode w).2
  rwa [h] at hencode

/-- Settles O31: a step that fetches nothing emits nothing, and one that fetches emits what its instruction emits. -/
theorem whoEmitsWhat : Obligations.WhoEmitsWhat := by
  intro s t hstep
  by_cases hf : ∃ w, Fetches s w
  · obtain ⟨w, hw⟩ := hf
    rcases exec_history (hw.step_eq.symm.trans hstep) with
      ⟨hkept, hcls, hunknown, hdraw⟩ | ⟨hredraw, hwho⟩ | ⟨w', hunknown, hreport⟩
    · refine .inl ⟨hkept, fun w' hw' => ?_⟩
      cases hw.wordAtPc.symm.trans hw'.wordAtPc
      exact ⟨hcls, hunknown w, hdraw⟩
    · exact .inr (.inl ⟨hredraw, w, hw, hwho⟩)
    · cases eq_of_decodeWord_eq_unknown hunknown
      exact .inr (.inr ⟨w, hw, hunknown, hreport⟩)
  · obtain ⟨-, -, -, -, hkept⟩ := step_keeps_of_not_fetches hstep (not_exists.1 hf)
    exact .inl ⟨hkept, fun w hw => absurd ⟨w, hw⟩ hf⟩

end Sys2Proof.Machine
end

section
/-! PROOFS. The call stack (43_call_stack.md R110 to R113): what a push and a pop do to the slots and to the list of the
valid entries, and that no run uses them. -/

namespace Sys2Proof.Machine

variable {s t : State}

/-! ## One push, one pop -/

theorem pushStep_of_ok {a : Word} (h : s.stackPush a = .ok t) : s.pushStep a = t := by
  rw [State.pushStep, h]

theorem pushStep_of_error {a : Word} {e : Event} (h : s.stackPush a = .error e) : s.pushStep a = s.raise e := by
  rw [State.pushStep, h]

theorem popStep_of_ok {a : Word} (h : s.stackPop = .ok (a, t)) : s.popStep = (some a, t) := by
  rw [State.popStep, h]

theorem popStep_of_error {e : Event} (h : s.stackPop = .error e) : s.popStep = (none, s.raise e) := by
  rw [State.popStep, h]

theorem untouched_setStack (s : State) (k : Vector Word 64) (d : Fin 65) : Untouched [.stack] s (s.setStack k d) :=
  untouched_of_fields (fun _ => rfl) (fun _ => rfl) (fun _ => rfl) (fun h => absurd (by decide) h)
    (fun _ => ⟨rfl, rfl⟩) (fun _ => rfl) (fun _ => ⟨rfl, rfl⟩) (fun _ => ⟨rfl, rfl, rfl⟩) (fun _ => rfl) (fun _ => rfl)

/-- Settles O45: a push that finds room replaces the slot at `SP`, one that finds none raises its event. -/
theorem pushWritesTheLowestFreeSlot : Obligations.PushWritesTheLowestFreeSlot := by
  intro s a
  rcases stackPush_cases a s with ⟨hfull, hpush⟩ | ⟨hroom, hpush⟩
  · exact ⟨fun hlt => absurd hfull hlt.ne, fun _ => ⟨hpush, pushStep_of_error hpush⟩⟩
  · refine ⟨fun _ => ⟨_, hpush, pushStep_of_ok hpush, rfl, fun k => ?_, untouched_setStack s _ _⟩,
      fun hfull => absurd hfull hroom.ne⟩
    rw [setStack_stack, Fin.getElem_fin, Vector.getElem_set]
    exact if_congr eq_comm rfl rfl

/-- Settles O46: a pop that finds an entry moves `SP` only, one that finds none raises its event. -/
theorem popReturnsTheNewestEntry : Obligations.PopReturnsTheNewestEntry := by
  intro s
  rcases stackPop_cases s with ⟨hempty, hpop⟩ | ⟨_, hpos, hpop⟩
  · exact ⟨fun k hk => by omega, fun _ => ⟨hpop, popStep_of_error hpop⟩⟩
  · refine ⟨fun k hk => ?_, fun hempty => absurd hempty hpos.ne'⟩
    have htop : s.sp.val - 1 = k.val := by omega
    simp only [htop] at hpop
    exact ⟨_, hpop, popStep_of_ok hpop, rfl, rfl, untouched_setStack s _ _⟩

/-! ## The list of the valid entries (43_call_stack.md R112) -/

theorem length_stackList (s : State) : s.stackList.length = s.sp.val := by
  have := s.sp.isLt
  simp [State.stackList]
  omega

/-- The newest valid entry is the slot below `SP`, the others are the slots below that one. -/
theorem stackList_eq_cons {n : Nat} (hn : n < 64) (hsp : s.sp.val = n + 1) :
    s.stackList = s.stack[n] :: (s.stack.toList.take n).reverse := by
  rw [State.stackList, hsp, List.take_succ_eq_append_getElem (by simpa using hn), List.reverse_concat,
    Vector.getElem_toList]

/-- A push on the stack is a `cons` on the list. -/
theorem stackList_of_push {a : Word} (h : s.stackPush a = .ok t) : t.stackList = a :: s.stackList := by
  rcases stackPush_cases a s with ⟨-, hpush⟩ | ⟨hroom, hpush⟩
  · cases h.symm.trans hpush
  · cases h.symm.trans hpush
    rw [stackList_eq_cons hroom rfl]
    simp [State.stackList, Vector.toList_set, List.take_set_of_le]

/-- A pop from the stack takes the list's head. -/
theorem stackList_of_pop {a : Word} (h : s.stackPop = .ok (a, t)) : s.stackList = a :: t.stackList := by
  rcases stackPop_cases s with ⟨-, hpop⟩ | ⟨hn, hpos, hpop⟩
  · cases h.symm.trans hpop
  · cases h.symm.trans hpop
    exact stackList_eq_cons hn (by omega)

/-- Settles O47, by induction on the sequence: each push and each pop is the list's, and fails exactly when the
list's does. -/
theorem callStackRefinesAList : Obligations.CallStackRefinesAList := by
  intro ops
  induction ops with
  | nil => exact fun s => rfl
  | cons op ops ih =>
    intro s
    cases op with
    | push a =>
      rcases stackPush_cases a s with ⟨hfull, hpush⟩ | ⟨hroom, hpush⟩
      · rw [runStack, hpush, runList, if_pos ((length_stackList s).trans hfull)]
        rfl
      · rw [runStack, hpush, runList, if_neg ((length_stackList s).trans_ne hroom.ne), ← stackList_of_push hpush]
        exact ih _
    | pop =>
      rcases stackPop_cases s with ⟨hempty, hpop⟩ | ⟨_, _, hpop⟩
      · have hnil : s.stackList = [] := List.length_eq_zero_iff.1 ((length_stackList s).trans hempty)
        rw [runStack, hpop, hnil]
        rfl
      · rw [runStack, hpop, stackList_of_pop hpop, runList, ← ih]
        dsimp only
        cases runStack ops (s.setStack s.stack _) with
        | error e => rfl
        | ok p => rfl

/-! ## No run uses the primitives (43_call_stack.md R113) -/

/-- The codes a step can latch: those of END, a quit and MEM_BOUNDS (10_state.md R28). -/
theorem step_cause (h : step s = .next t) : t.cause = s.cause ∨ t.cause = 1 ∨ t.cause = 2 ∨ t.cause = 4 := by
  cases stepTo_of_step h with
  | ended _ ht => subst ht; exact .inl rfl
  | tick _ _ ht => subst ht; exact .inl rfl
  | halted _ _ _ ht => subst ht; exact .inl rfl
  | quit _ _ ht => subst ht; exact .inr (.inr (.inl rfl))
  | lastByte _ _ _ ht => subst ht; exact .inr (.inr (.inr rfl))
  | fetched w _ he =>
    rcases exec_status he with ⟨-, hkept, -⟩ | ⟨-, -, hend, -⟩ | ⟨-, -, -, -, -, -, -, hbounds, -⟩
    · exact .inl hkept
    · exact .inr (.inl hend)
    · exact .inr (.inr (.inr hbounds))

/-- No step latches the code of a call-stack event. -/
theorem step_cause_ne {c : BitVec 3} (hc : c = 5 ∨ c = 6) (h : step s = .next t) (hs : s.cause ≠ c) : t.cause ≠ c := by
  rcases step_cause h with hkept | hlatched
  · rwa [hkept]
  · intro ht
    rw [ht] at hlatched
    rcases hc with rfl | rfl
    · exact absurd hlatched (by decide)
    · exact absurd hlatched (by decide)

/-- Every run keeps the call stack. -/
theorem run_keeps_stack {k : Nat} (h : Sys2Proof.core.run k s = .next t) : t.stack = s.stack ∧ t.sp = s.sp := by
  refine run_induction (P := fun u => u.stack = s.stack ∧ u.sp = s.sp) ?_ k s t ⟨rfl, rfl⟩ h
  intro u u' ⟨hstack, hsp⟩ hstep
  obtain ⟨v, hv, -, -, hstack', hsp'⟩ := step_answers u
  cases hstep.symm.trans hv
  exact ⟨hstack'.trans hstack, hsp'.trans hsp⟩

/-- Settles O30: what every step keeps, every run keeps. -/
theorem callStackIsNeverTouched : Obligations.CallStackIsNeverTouched := by
  intro k s t hk
  have never {c : BitVec 3} (hc : c = 5 ∨ c = 6) (hs : s.cause ≠ c) : t.cause ≠ c :=
    run_induction (P := fun u => u.cause ≠ c) (fun _ _ hu hstep => step_cause_ne hc hstep hu) k s t hs hk
  obtain ⟨hstack, hsp⟩ := run_keeps_stack hk
  exact ⟨hstack, hsp, never (.inl rfl), never (.inr rfl)⟩

end Sys2Proof.Machine
end

section
/-! PROOFS. Events and the agents that take them (60_exceptions.md R120 to R133): UNKNOWN's report, the table of the
latched events, the timer tick and the quit. -/

namespace Sys2Proof.Machine

variable {s t : State}

/-! ## Latched events -/

/-- Settles O36: the event table is `Event.status`, `Event.code` and `Event.info`, and a 16-bit address is recorded
whole. -/
theorem takingAnEvent : Obligations.TakingAnEvent := by
  refine fun s => ⟨untouched_raise s, fun _ => rfl, rfl, fun a ha => ⟨rfl, rfl, ?_⟩, fun _ => rfl, rfl⟩
  exact (BitVec.toNat_ofNat a 16).trans (Nat.mod_eq_of_lt (Nat.lt_succ_of_le ha))

/-! ## UNKNOWN -/

/-- The words of no other row decode to UNKNOWN (40_fetch_dispatch.md R86). -/
theorem decodeWord_of_noRow {w : Word} (hend : w ≠ 0x0000#16) (hcls : w ≠ 0x00E0#16)
    (htop : w.toNat / 4096 ∉ [0x1, 0x6, 0x7, 0xA, 0xD]) : decodeWord w = .unknown w := by
  simp only [List.mem_cons, List.not_mem_nil, or_false, not_or] at htop
  exact (DecodesTo.unknown (isUnknown_iff.2 ⟨hend, hcls, htop⟩)).decodeWord_eq

/-- A step that fetches an UNKNOWN is the fetch followed by the report (60_exceptions.md R122). -/
theorem step_of_fetches_unknown {w : Word} (hw : Fetches s w) (hi : decodeWord w = .unknown w) :
    step s = .next (s.afterFetch.emit (.reportUnknown w)) := by
  rw [hw.step_eq, hi]
  rfl

theorem untouched_afterFetch_emit (s : State) (e : OutEvent) :
    Untouched [.history, .pc, .arrivals] s (s.afterFetch.emit e) :=
  ((untouched_afterFetch s).mono (by simp)).trans ((untouched_emit s.afterFetch e).mono (by simp))

/-- Code 3, UNKNOWN_OPCODE, is none of the codes a step can latch. -/
theorem step_cause_ne_three (h : step s = .next t) (hs : s.cause ≠ 3) : t.cause ≠ 3 := by
  rcases step_cause h with hkept | hend | hquit | hbounds
  · rwa [hkept]
  · rw [hend]; decide
  · rw [hquit]; decide
  · rw [hbounds]; decide

/-- Settles O19: UNKNOWN emits one report and does nothing else, and its fetch only advances `PC` and takes the event. -/
theorem unknownIsReportedAndSkipped : Obligations.UnknownIsReportedAndSkipped := by
  refine ⟨fun w hend hcls htop => wordRuns_of_decodeWord (decodeWord_of_noRow hend hcls htop),
    fun w s => ⟨s.emit (.reportUnknown w), rfl, rfl, rfl, untouched_emit s _⟩, fun s w hw hi => ?_,
    fun s t => step_cause_ne_three⟩
  exact ⟨_, step_of_fetches_unknown hw hi, rfl, rfl, untouched_afterFetch_emit s _⟩

/-! ## The timer tick -/

/-- Settles O33: a running machine takes the tick, and `countDown` subtracts 1 down to 0. -/
theorem tickCountsBothTimersDown : Obligations.TickCountsBothTimersDown :=
  fun s hrun harr => ⟨_, step_tick s hrun harr, toNat_countDown s.dt, toNat_countDown s.st, rfl,
    untouched_takeArrival_setTimers s _ _⟩

theorem countDown_eq_self {b : Byte} (h : b = 0) : countDown b = b := by
  subst h
  rfl

/-- A tick finds nothing to do when both timers are at 0 (60_exceptions.md R133). -/
theorem tickStep_of_timers_zero (hdt : s.dt = 0) (hst : s.st = 0) : tickStep s = s := by
  rw [tickStep, countDown_eq_self hdt, countDown_eq_self hst]
  rfl

/-- Of the situations a step can find, only the tick writes the timers. -/
theorem step_keeps_timers (h : step s = .next t) (harr : s.nextArrival ≠ .tick60) : t.dt = s.dt ∧ t.st = s.st := by
  cases stepTo_of_step h with
  | tick _ htick _ => exact absurd htick harr
  | ended _ ht => subst ht; exact ⟨rfl, rfl⟩
  | quit _ _ ht => subst ht; exact ⟨rfl, rfl⟩
  | halted _ _ _ ht => subst ht; exact ⟨rfl, rfl⟩
  | lastByte _ _ _ ht => subst ht; exact ⟨rfl, rfl⟩
  | fetched w _ he =>
    obtain ⟨-, -, -, -, htimers⟩ := exec_keeps he
    exact htimers

/-- Settles O34: the tick is the only writer of the timers, and at 0 only its event is taken. -/
theorem timersChangeByTicksOnly : Obligations.TimersChangeByTicksOnly := by
  refine ⟨fun s t => step_keeps_timers, fun s hrun harr hdt hst => ?_⟩
  rw [step_tick s hrun harr, tickStep_of_timers_zero (s := s.takeArrival) hdt hst]
  rfl

/-! ## The quit -/

theorem untouched_takeArrival (s : State) : Untouched [.arrivals] s s.takeArrival :=
  untouched_of_fields (fun _ => rfl) (fun _ => rfl) (fun _ => rfl) (fun _ => ⟨rfl, rfl⟩) (fun _ => ⟨rfl, rfl⟩)
    (fun _ => rfl) (fun _ => ⟨rfl, rfl⟩) (fun _ => ⟨rfl, rfl, rfl⟩) (fun _ => rfl) (fun h => absurd (by decide) h)

theorem untouched_takeArrival_raise (s : State) (e : Event) :
    Untouched [.status, .arrivals] s (s.takeArrival.raise e) :=
  ((untouched_takeArrival s).mono (by simp)).trans ((untouched_raise s.takeArrival e).mono (by simp))

/-- Settles O35: a running machine takes the quit, and an ended one takes no event. -/
theorem quitStopsARunningMachine : Obligations.QuitStopsARunningMachine :=
  ⟨fun s hrun harr => ⟨_, step_quit s hrun harr, rfl, rfl, rfl, rfl, untouched_takeArrival_raise s .quit⟩,
    fun s hrun _ => step_ended s hrun⟩

end Sys2Proof.Machine
end

section
/-! PROOFS. The loader (70_reset_and_hazards.md R141, R142): which ROMs are launched, and that loading the glyph table
only takes the cells of its region off the memory list. -/

namespace Sys2Proof.Machine

/-- Settles O42: the check of the ROM's length is the only way the reset sequence can fail. -/
theorem oversizedRomGivesNoLaunch : Obligations.OversizedRomGivesNoLaunch := by
  intro g rom
  constructor
  · intro hnone
    by_contra hlen
    obtain ⟨s, hsome, -⟩ := launch_answers g rom (Nat.le_of_not_lt hlen)
    cases hnone.symm.trans hsome
  · intro hlen
    refine Option.eq_none_iff_forall_ne_some.2 fun s hsome => ?_
    exact absurd (length_le_of_launch hsome) (Nat.not_le_of_lt hlen)

/-! ## The glyph table in its region -/

/-- The cells of a memory list outside `n` addresses from `a` on. -/
def Memory.outside (m : Memory) (a n : Nat) : Memory := m.filter fun c => c.1 < a ∨ a + n ≤ c.1

theorem Memory.outside_zero (m : Memory) (a : Nat) : Memory.outside m a 0 = m :=
  List.filter_eq_self.2 fun c _ => decide_eq_true (Nat.lt_or_ge c.1 a)

theorem Memory.outside_outside (m : Memory) (a n : Nat) :
    Memory.outside (Memory.outside m a n) a n = Memory.outside m a n := by
  simp [Memory.outside, List.filter_filter]

theorem Memory.erase_eq_filter (m : Memory) (a : Nat) : Memory.erase m a = m.filter fun c => c.1 ≠ a := by
  induction m with
  | nil => rfl
  | cons c m ih =>
    obtain ⟨k, b⟩ := c
    by_cases hk : k = a
    · simp [Memory.erase, hk, ih]
    · simp [Memory.erase, hk, ih]

theorem Memory.outside_erase (m : Memory) (a n : Nat) :
    Memory.outside (Memory.erase m a) (a + 1) n = Memory.outside m a (n + 1) := by
  rw [Memory.erase_eq_filter, Memory.outside, Memory.outside, List.filter_filter]
  refine List.filter_congr fun c _ => ?_
  rw [← Bool.decide_and, decide_eq_decide]
  omega

/-- Storing what an address reads as when unlisted takes its cell off the list. -/
theorem storeByte_unlisted (s : State) (a : Nat) :
    s.storeByte a (Memory.unlisted s.glyphTable a) = s.setMem (Memory.erase s.mem a) := by
  rw [State.storeByte, Memory.write, if_pos rfl]

/-- Loading what the addresses read as when unlisted takes their cells off the list and does nothing else. -/
theorem loadBytes_unlisted (bs : List Byte) : ∀ (a : Nat) (s : State), a + bs.length ≤ 4096 →
    (∀ (k : Nat) (h : k < bs.length), bs[k] = Memory.unlisted s.glyphTable (a + k)) →
    loadBytes a bs s = .ok (s.setMem (Memory.outside s.mem a bs.length)) := by
  induction bs with
  | nil => intro a s _ _; rw [List.length_nil, Memory.outside_zero]; rfl
  | cons b bs ih =>
    intro a s hlen hbs
    rw [List.length_cons] at hlen
    have hhead : b = Memory.unlisted s.glyphTable a := hbs 0 (Nat.succ_pos _)
    have htail (k : Nat) (hk : k < bs.length) : bs[k] = Memory.unlisted s.glyphTable (a + 1 + k) := by
      rw [Nat.add_right_comm]
      exact hbs (k + 1) (Nat.succ_lt_succ hk)
    calc loadBytes a (b :: bs) s
        = loadBytes (a + 1) bs (s.setMem (Memory.erase s.mem a)) := by
          simp only [loadBytes, memWrite_ok s b (show a < 4096 by omega)]
          rw [hhead, storeByte_unlisted]
      _ = .ok (s.setMem (Memory.outside (Memory.erase s.mem a) (a + 1) bs.length)) := ih (a + 1) _ (by omega) htail
      _ = .ok (s.setMem (Memory.outside s.mem a (bs.length + 1))) := by rw [Memory.outside_erase]

/-- `load_glyphs()` (70_reset_and_hazards.md R141) takes the cells of the glyph region off the list: unlisted, they
read as the table. -/
theorem loadGlyphs_eq (s : State) : loadGlyphs s = .ok (s.setMem (Memory.outside s.mem 0x050 80)) := by
  have hlen : s.glyphTable.toList.length = 80 := s.glyphTable.length_toList
  have hload := loadBytes_unlisted s.glyphTable.toList 0x050 s (by omega) fun k hk => by
    rw [unlisted_glyph s.glyphTable k (by omega), Vector.getElem_toList]
  rwa [hlen] at hload

/-- Settles O44: the loader's law gives the bytes, and the glyph region taken off the list twice is taken off once. -/
theorem loadGlyphsIsIdempotent : Obligations.LoadGlyphsIsIdempotent := by
  intro s
  have hlen : s.glyphTable.toList.length = 80 := s.glyphTable.length_toList
  obtain ⟨t, hload, -, hbyte, -⟩ := loadBytes_ok s.glyphTable.toList 0x050 s (by omega)
  have ht : t = s.setMem (Memory.outside s.mem 0x050 80) := Except.ok.inj (hload.symm.trans (loadGlyphs_eq s))
  refine ⟨t, hload, fun k => ?_, fun a ha => ?_, ?_⟩
  · rw [hbyte, dif_pos (by omega)]
    simp
  · rw [hbyte, dif_neg (by omega)]
  · rw [loadGlyphs_eq, ht, setMem_mem, Memory.outside_outside]
    rfl

end Sys2Proof.Machine
end

section
/-! PROOFS. The words of the decode vectors (95_test_vectors.md Part 2), each by the row of the opcode map it meets. -/

namespace Sys2Proof

/-- Settles O5: each word meets the condition of its row, and the row takes the operands from the word's fields. -/
theorem sampleWordsDecode : Obligations.SampleWordsDecode :=
  ⟨(DecodesTo.endOfProgram rfl).decodeWord_eq, (DecodesTo.cls rfl).decodeWord_eq, (DecodesTo.jump rfl).decodeWord_eq,
    (DecodesTo.setr rfl).decodeWord_eq, (DecodesTo.addi rfl).decodeWord_eq, (DecodesTo.seti rfl).decodeWord_eq,
    (DecodesTo.draw rfl).decodeWord_eq, (DecodesTo.draw rfl).decodeWord_eq, (DecodesTo.unknown rfl).decodeWord_eq,
    (DecodesTo.unknown rfl).decodeWord_eq, (DecodesTo.unknown rfl).decodeWord_eq⟩

end Sys2Proof
end

section
/-! PROOFS. The launch of the empty ROM (70_reset_and_hazards.md R140 to R144): nothing but the glyph table is in memory,
and the canonical form lists no cell for it. -/

namespace Sys2Proof.Machine

/-- An address outside the glyph region reads as 0 when unlisted. -/
theorem unlisted_of_not_glyph (g : GlyphTable) {a : Nat} (h : a < 0x050 ∨ 0x0A0 ≤ a) : Memory.unlisted g a = 0 :=
  dif_neg fun ⟨hlow, hhigh⟩ => h.elim (Nat.not_lt_of_le hlow) (Nat.not_le_of_lt hhigh)

/-- A memory in canonical form that reads as the glyph table in its region and as 0 elsewhere lists no cell. -/
theorem Memory.eq_nil_of_read {g : GlyphTable} {m : Memory} (hwf : Memory.wf g m)
    (hglyph : ∀ k : Fin 80, Memory.read g m (0x050 + k.val) = g[k])
    (hzero : ∀ a, (a < 0x050 ∨ 0x0A0 ≤ a) → Memory.read g m a = 0) : m = [] := by
  refine equalMemoriesAreEqualData g m [] hwf (Memory.nil_wf g) fun a => ?_
  have hnil : Memory.read g [] a = Memory.unlisted g a := rfl
  by_cases ha : a < 0x050 ∨ 0x0A0 ≤ a
  · rw [hzero a ha, hnil, unlisted_of_not_glyph g ha]
  · obtain ⟨k, rfl⟩ : ∃ k : Fin 80, a = 0x050 + k.val := ⟨⟨a - 0x050, by omega⟩, by dsimp only; omega⟩
    rw [hglyph k, hnil, unlisted_glyph g k.val k.isLt]
    rfl

/-- The launch of the empty ROM is the zeroed state with `PC` at the program's base and no cell listed, for every glyph
table. -/
theorem launch_nil (g : GlyphTable) : launch g [] = some { zeroedState g with pc := 0x200, mem := [] } := by
  obtain ⟨s, hlaunch, hs, hwf, hglyph, -, hzero⟩ := launch_answers g [] (Nat.zero_le _)
  have hread (a : Nat) : s.byteAt a = Memory.read g s.mem a := by rw [hs]; rfl
  have hmem : s.mem = [] := by
    refine Memory.eq_nil_of_read hwf (fun k => (hread _).symm.trans (hglyph k)) fun a ha => ?_
    exact (hread a).symm.trans (hzero a ha (Nat.lt_or_ge a 0x200))
  rw [hlaunch, hs, hmem]

/-- Settles O43: the launch of the empty ROM at the conventional glyph table. -/
theorem resetIsTheEmptyLaunch : Obligations.ResetIsTheEmptyLaunch := launch_nil defaultGlyphTable

end Sys2Proof.Machine
end
